-- ==== Sys2Proof/Word.lean ====
section
/-!
DEFINITION. The widths of spec/00_scope.md R4 as named constants, and the word types of the machine (R6: every value is
an unsigned bit vector of a stated width). Each type reads its width from its constant, so one edit of the constant
changes the type and every conversion into it (log entry 13). `delta%` puts the constant's number into the type, which proofs then see
as a numeral. Nothing here is signed and nothing here wraps by itself.
-/

namespace Sys2Proof.Config

/-- `V_BITS` (R4): width of a general register, of `DT`, of `ST` and of `sp`. -/
abbrev vBits : Nat := 8

/-- `I_BITS` (R4): width of `I`. -/
abbrev iBits : Nat := 16

/-- `PC_BITS` (R4): width of `pc`. -/
abbrev pcBits : Nat := 16

/-- `STACK_ENTRY_BITS` (R4), 16: width of a call-stack entry, the width of `pc` (the spec's decision D10, R26). -/
abbrev stackEntryBits : Nat := delta% pcBits

/-- `OPCODE_BITS` (R4): length of an instruction. -/
abbrev opcodeBits : Nat := 16

end Sys2Proof.Config

namespace Sys2Proof

/-- A `u8`: a general register, a timer, `sp` as a register, and a memory byte, which a register holds unchanged
(R194, R195). -/
abbrev Byte := BitVec (delta% Config.vBits)

/-- The index register `I`. -/
abbrev IndexWord := BitVec (delta% Config.iBits)

/-- A value of `pc`: the address of an instruction. -/
abbrev CodeAddr := BitVec (delta% Config.pcBits)

/-- An entry of the call stack. -/
abbrev StackEntry := BitVec (delta% Config.stackEntryBits)

/-- An instruction word. -/
abbrev Opcode := BitVec (delta% Config.opcodeBits)

/-- A `u4`: the fields `X`, `Y`, `N` of R91 and a key value of R31. -/
abbrev Nibble := BitVec 4

/-- A `u12`: the field `NNN` of R91. -/
abbrev Addr := BitVec 12

end Sys2Proof
end

