-- ==== Sys2Proof/Config.lean ====
section
/-!
DEFINITION. What an implementation fixes: the fixed parameters of spec/00_scope.md R4 as named constants (the widths
stand in Word.lean), the quirk configuration record of spec/10_state.md R35 and R36, and the open parameters of R5 as
constants WITHOUT A BODY, so that no proof can see their value.
-/

namespace Sys2Proof.Config

/-- `MEM_SIZE` (R4): bytes of memory; the valid addresses are 0 to 4095. -/
abbrev memSize : Nat := 4096

/-- `LOAD_OFFSET` (R4): address of the first byte of the program image, and reset value of `pc`. -/
abbrev loadOffset : Nat := 512

/-- `NUM_V` (R4): general registers. -/
abbrev numV : Nat := 16

/-- `STACK_DEPTH` (R4): entries of the call stack. -/
abbrev stackDepth : Nat := 16

/-- `DISPLAY_W` (R4): columns, x = 0 to 63. -/
abbrev displayW : Nat := 64

/-- `DISPLAY_H` (R4): rows, y = 0 to 31. -/
abbrev displayH : Nat := 32

/-- `NUM_KEYS` (R4): keys of the pad. -/
abbrev numKeys : Nat := 16

/-- `SPRITE_W` (R4): a sprite row is one byte. -/
abbrev spriteW : Nat := 8

/-- `SPRITE_MAX_H` (R4): the largest sprite height, the largest value of the field `N`. -/
abbrev spriteMaxH : Nat := 15

/-- `TIMER_HZ` (R4): the nominal rate of `tick_timers` per second, a duty of the host; no rule depends on it and nothing
in the model reads it (log entry 12). -/
abbrev timerHz : Nat := 60

/-- `FLAG_REG` (R4, R22; the spec's decision D3): `VF` is `V[15]`. -/
abbrev flagReg : Nibble := 15

/-- `GLYPH_H` (R4; the spec's decision D9): bytes of one font glyph. -/
abbrev glyphH : Nat := 5

/-- The number of font bytes (R5, R69): 16 glyphs of `GLYPH_H` bytes. -/
abbrev fontLen : Nat := 16 * glyphH

/-- The `STOP` word (R103; the spec's decision D2). -/
abbrev stopOpcode : Opcode := 0x00FD

/-- `FONT_BASE` (R5), OPEN: any address with `FONT_BASE + 80 ≤ LOAD_OFFSET`, that is 0 to 432. No body: every
statement holds for every value the constraint allows (log entry 1). -/
opaque fontBase : Fin (loadOffset - fontLen + 1)

/-- `FONT_DATA` (R5), OPEN: the 80 font bytes, with no constraint (log entry 1). No body. -/
opaque fontByte : Fin fontLen → Byte

/-- `rnd` (R5, R152), OPEN: the byte drawn by the `n`-th execution of `RND`. A free value: no body, no law (log
entry 2). -/
opaque rnd : Nat → Byte

end Sys2Proof.Config

namespace Sys2Proof

/-- `cfg` (R35, R36): the five quirk toggles and the strictness setting. A default-built value is the configuration
of a machine on which `configure` was never called: every quirk false, `strict` true. -/
structure QuirkConfig where
  /-- `q_result_last` (flag-write-order): the result is written after the flag (R140). -/
  qResultLast : Bool := false
  /-- `q_index_increment`: the block transfers add `X + 1` to `I` (R194, R195). -/
  qIndexIncrement : Bool := false
  /-- `q_clip_rows`: sprite rows beyond the bottom edge are not drawn (R210). -/
  qClipRows : Bool := false
  /-- `q_shift_vy`: `SHR` and `SHL` shift `V[Y]` (R149, R151). -/
  qShiftVy : Bool := false
  /-- `q_jump_vx`: `JP V0, addr` adds `V[X]` (R178). -/
  qJumpVx : Bool := false
  /-- `strict`: an unsupported opcode is fatal (R36, R242). -/
  strict : Bool := true
  deriving DecidableEq, Repr

end Sys2Proof
end

