-- ==== Sys2Proof/Syntax.lean ====
section
/-!
DEFINITION. The instructions: one constructor per row of spec/opcode_table.json (35 rows), with the operand fields of
spec/30_encoding.md R91 in their exact widths. The mnemonic of each constructor is in LAWS.json.
-/

namespace Sys2Proof

/-- The 35 supported instructions of R95, in the table's order. Operands: `x`, `y` register indices, `n` the 4-bit,
`nn` the 8-bit immediate, `nnn` the 12-bit address. -/
inductive Instr where
  /-- 00E0 `CLS` (R240). -/
  | cls
  /-- 00EE `RET` (R173). -/
  | ret
  /-- 00FD `STOP` (R241). -/
  | stop
  /-- 1NNN `JP addr` (R171). -/
  | jp (nnn : Addr)
  /-- 2NNN `CALL addr` (R172). -/
  | call (nnn : Addr)
  /-- 3XNN `SE Vx, byte` (R174). -/
  | seByte (x : Nibble) (nn : Byte)
  /-- 4XNN `SNE Vx, byte` (R175). -/
  | sneByte (x : Nibble) (nn : Byte)
  /-- 5XY0 `SE Vx, Vy` (R176). -/
  | seReg (x y : Nibble)
  /-- 6XNN `LD Vx, byte` (R141). -/
  | ldByte (x : Nibble) (nn : Byte)
  /-- 7XNN `ADD Vx, byte` (R142). -/
  | addByte (x : Nibble) (nn : Byte)
  /-- 8XY0 `LD Vx, Vy` (R143). -/
  | ldReg (x y : Nibble)
  /-- 8XY1 `OR Vx, Vy` (R144). -/
  | orReg (x y : Nibble)
  /-- 8XY2 `AND Vx, Vy` (R145). -/
  | andReg (x y : Nibble)
  /-- 8XY3 `XOR Vx, Vy` (R146). -/
  | xorReg (x y : Nibble)
  /-- 8XY4 `ADD Vx, Vy` (R147). -/
  | addReg (x y : Nibble)
  /-- 8XY5 `SUB Vx, Vy` (R148). -/
  | subReg (x y : Nibble)
  /-- 8XY6 `SHR Vx, Vy` (R149); `y` is ignored unless `q_shift_vy`, and is encoded all the same (R101). -/
  | shr (x y : Nibble)
  /-- 8XY7 `SUBN Vx, Vy` (R150). -/
  | subnReg (x y : Nibble)
  /-- 8XYE `SHL Vx, Vy` (R151); `y` as for `shr`. -/
  | shl (x y : Nibble)
  /-- 9XY0 `SNE Vx, Vy` (R177). -/
  | sneReg (x y : Nibble)
  /-- ANNN `LD I, addr` (R190). -/
  | ldI (nnn : Addr)
  /-- BNNN `JP V0, addr` (R178); the quirk `q_jump_vx` reads the top nibble of `nnn` as a register index too. -/
  | jpV0 (nnn : Addr)
  /-- CXNN `RND Vx, byte` (R152). -/
  | rnd (x : Nibble) (nn : Byte)
  /-- DXYN `DRW Vx, Vy, nibble` (R210). -/
  | drw (x y n : Nibble)
  /-- EX9E `SKP Vx` (R230). -/
  | skp (x : Nibble)
  /-- EXA1 `SKNP Vx` (R231). -/
  | sknp (x : Nibble)
  /-- FX07 `LD Vx, DT` (R220). -/
  | ldVxDt (x : Nibble)
  /-- FX0A `LD Vx, K` (R232). -/
  | ldVxK (x : Nibble)
  /-- FX15 `LD DT, Vx` (R221). -/
  | ldDtVx (x : Nibble)
  /-- FX18 `LD ST, Vx` (R222). -/
  | ldStVx (x : Nibble)
  /-- FX1E `ADD I, Vx` (R191). -/
  | addI (x : Nibble)
  /-- FX29 `LD F, Vx` (R192). -/
  | ldF (x : Nibble)
  /-- FX33 `LD B, Vx` (R193). -/
  | ldB (x : Nibble)
  /-- FX55 `LD [I], Vx` (R194). -/
  | storeRegs (x : Nibble)
  /-- FX65 `LD Vx, [I]` (R195). -/
  | loadRegs (x : Nibble)
  deriving DecidableEq, Repr

/-- What `decode` yields (R94): a supported instruction, or the explicit variant `Unsupported(op)`, which carries the
opcode. -/
inductive Decoded where
  | supported (i : Instr)
  | unsupported (op : Opcode)
  deriving DecidableEq, Repr

end Sys2Proof
end

