-- ==== Sys2Proof/Decode.lean ====
section
/-!
DEFINITION. The decoder and the encoder (spec/30_encoding.md R90 to R99). `decode` is total on all 65536 words and
rejects by name: a word outside the opcode map is `Decoded.unsupported op` (R94, R97). It reads nothing but the word.
-/

namespace Sys2Proof

/-! ### Fields (R91) -/

/-- `C`, the category selector: bits 15 to 12. -/
def fieldC (op : Opcode) : Nibble := op.extractLsb' 12 4

/-- `X`: bits 11 to 8. -/
def fieldX (op : Opcode) : Nibble := op.extractLsb' 8 4

/-- `Y`: bits 7 to 4. -/
def fieldY (op : Opcode) : Nibble := op.extractLsb' 4 4

/-- `N`: bits 3 to 0. -/
def fieldN (op : Opcode) : Nibble := op.extractLsb' 0 4

/-- `NN`: bits 7 to 0. -/
def fieldNN (op : Opcode) : Byte := op.extractLsb' 0 8

/-- `NNN`: bits 11 to 0. -/
def fieldNNN (op : Opcode) : Addr := op.extractLsb' 0 12

/-! ### Decoding (R94, R95) -/

/-- The group `C` = 0: three exact words (R95, R103); every other 0NNN is unsupported. -/
def decodeSystem (op : Opcode) : Decoded :=
  if op = 0x00E0 then .supported .cls
  else if op = 0x00EE then .supported .ret
  else if op = Config.stopOpcode then .supported .stop
  else .unsupported op

/-- The group `C` = 8, selected by `N` (R95). -/
def decodeArith (op : Opcode) : Decoded :=
  let x := fieldX op
  let y := fieldY op
  match fieldN op with
  | 0x0 => .supported (.ldReg x y)
  | 0x1 => .supported (.orReg x y)
  | 0x2 => .supported (.andReg x y)
  | 0x3 => .supported (.xorReg x y)
  | 0x4 => .supported (.addReg x y)
  | 0x5 => .supported (.subReg x y)
  | 0x6 => .supported (.shr x y)
  | 0x7 => .supported (.subnReg x y)
  | 0xE => .supported (.shl x y)
  | _ => .unsupported op

/-- The group `C` = E, selected by `NN` (R95). -/
def decodeKey (op : Opcode) : Decoded :=
  match fieldNN op with
  | 0x9E => .supported (.skp (fieldX op))
  | 0xA1 => .supported (.sknp (fieldX op))
  | _ => .unsupported op

/-- The group `C` = F, selected by `NN` (R95). -/
def decodeMisc (op : Opcode) : Decoded :=
  let x := fieldX op
  match fieldNN op with
  | 0x07 => .supported (.ldVxDt x)
  | 0x0A => .supported (.ldVxK x)
  | 0x15 => .supported (.ldDtVx x)
  | 0x18 => .supported (.ldStVx x)
  | 0x1E => .supported (.addI x)
  | 0x29 => .supported (.ldF x)
  | 0x33 => .supported (.ldB x)
  | 0x55 => .supported (.storeRegs x)
  | 0x65 => .supported (.loadRegs x)
  | _ => .unsupported op

/-- `decode` (R94): select on `C`, then on the secondary field (R95). -/
def decode (op : Opcode) : Decoded :=
  let x := fieldX op
  let y := fieldY op
  let nn := fieldNN op
  let nnn := fieldNNN op
  match fieldC op with
  | 0x0 => decodeSystem op
  | 0x1 => .supported (.jp nnn)
  | 0x2 => .supported (.call nnn)
  | 0x3 => .supported (.seByte x nn)
  | 0x4 => .supported (.sneByte x nn)
  | 0x5 => if fieldN op = 0 then .supported (.seReg x y) else .unsupported op
  | 0x6 => .supported (.ldByte x nn)
  | 0x7 => .supported (.addByte x nn)
  | 0x8 => decodeArith op
  | 0x9 => if fieldN op = 0 then .supported (.sneReg x y) else .unsupported op
  | 0xA => .supported (.ldI nnn)
  | 0xB => .supported (.jpV0 nnn)
  | 0xC => .supported (.rnd x nn)
  | 0xD => .supported (.drw x y (fieldN op))
  | 0xE => decodeKey op
  | _ => decodeMisc op

/-! ### Encoding (R92) -/

/-- Format `NNN`. -/
def encodeNNN (c : Nibble) (nnn : Addr) : Opcode := c ++ nnn

/-- Format `XNN`. -/
def encodeXNN (c x : Nibble) (nn : Byte) : Opcode := c ++ x ++ nn

/-- Formats `XYK` and `XYN`. -/
def encodeXYN (c x y n : Nibble) : Opcode := c ++ x ++ y ++ n

/-- The word of an instruction, from the formats of R92 and the patterns of R95. -/
def encode : Instr → Opcode
  | .cls => 0x00E0
  | .ret => 0x00EE
  | .stop => Config.stopOpcode
  | .jp nnn => encodeNNN 0x1 nnn
  | .call nnn => encodeNNN 0x2 nnn
  | .seByte x nn => encodeXNN 0x3 x nn
  | .sneByte x nn => encodeXNN 0x4 x nn
  | .seReg x y => encodeXYN 0x5 x y 0x0
  | .ldByte x nn => encodeXNN 0x6 x nn
  | .addByte x nn => encodeXNN 0x7 x nn
  | .ldReg x y => encodeXYN 0x8 x y 0x0
  | .orReg x y => encodeXYN 0x8 x y 0x1
  | .andReg x y => encodeXYN 0x8 x y 0x2
  | .xorReg x y => encodeXYN 0x8 x y 0x3
  | .addReg x y => encodeXYN 0x8 x y 0x4
  | .subReg x y => encodeXYN 0x8 x y 0x5
  | .shr x y => encodeXYN 0x8 x y 0x6
  | .subnReg x y => encodeXYN 0x8 x y 0x7
  | .shl x y => encodeXYN 0x8 x y 0xE
  | .sneReg x y => encodeXYN 0x9 x y 0x0
  | .ldI nnn => encodeNNN 0xA nnn
  | .jpV0 nnn => encodeNNN 0xB nnn
  | .rnd x nn => encodeXNN 0xC x nn
  | .drw x y n => encodeXYN 0xD x y n
  | .skp x => encodeXNN 0xE x 0x9E
  | .sknp x => encodeXNN 0xE x 0xA1
  | .ldVxDt x => encodeXNN 0xF x 0x07
  | .ldVxK x => encodeXNN 0xF x 0x0A
  | .ldDtVx x => encodeXNN 0xF x 0x15
  | .ldStVx x => encodeXNN 0xF x 0x18
  | .addI x => encodeXNN 0xF x 0x1E
  | .ldF x => encodeXNN 0xF x 0x29
  | .ldB x => encodeXNN 0xF x 0x33
  | .storeRegs x => encodeXNN 0xF x 0x55
  | .loadRegs x => encodeXNN 0xF x 0x65

/-! ### Bytes (R63, R90) -/

/-- The high byte of a word: the one at the lower address. -/
def highByte (w : Opcode) : Byte := w.extractLsb' 8 8

/-- The low byte of a word: the one at the higher address. -/
def lowByte (w : Opcode) : Byte := w.extractLsb' 0 8

/-- The fetched word of two bytes, the byte at the lower address being bits 15 to 8 (R63). -/
def combine (hi lo : Byte) : Opcode := hi ++ lo

/-- `decode` on bytes: an instruction takes exactly two (R90, R99); the rest of the list comes back. -/
def decodeBytes : List Byte → Option (Decoded × List Byte)
  | hi :: lo :: rest => some (decode (combine hi lo), rest)
  | _ => none

/-- The first `nbits` bits of `w`, numbered as spec/opcode_table.json numbers them, as the instruction's one 16-bit
word. A number that needs more than the word's 16 bits is no instruction. -/
def tableWord (nbits w : Nat) : Option Opcode :=
  if w % 2 ^ nbits < 2 ^ Config.opcodeBits then some (BitVec.ofNat _ (w % 2 ^ nbits)) else none

/-- The instruction the decoder reads from an instruction whose bits are `w` (numbered as the opcode table numbers
them), laid out in memory high byte first. -/
def decodeTableWord (nbits w : Nat) : Option Instr :=
  match tableWord nbits w with
  | none => none
  | some op =>
    match decodeBytes [highByte op, lowByte op] with
    | some (.supported i, _) => some i
    | _ => none

end Sys2Proof
end

