-- ==== Sys2Proof/Machine/State.lean ====
section
/-!
DEFINITION. The machine state (spec/10_state.md R20: one record, every component of it a field here), the reasons a
step can stop, and the reset state (R39, spec/70_reset_and_hazards.md R330).
-/

namespace Sys2Proof.Machine

/-- The five error kinds, in the order of spec/60_exceptions.md R280. -/
inductive ErrorKind where
  /-- The image is too large for memory; raised by `load` only (R298). -/
  | loadError
  /-- An address outside memory: fetch, `DRW`, `LD B, Vx`, `LD [I], Vx`, `LD Vx, [I]` (R282). -/
  | outOfBounds
  /-- `CALL` on a full call stack (R172). -/
  | stackOverflow
  /-- `RET` on an empty call stack (R173). -/
  | stackUnderflow
  /-- An opcode with no mapping, when `cfg.strict` (R242). -/
  | unsupportedInstruction
  deriving DecidableEq, Repr

/-- The `reason` of `Halted(reason)` (R34): the two non-error ways in, or an error kind. -/
inductive HaltReason where
  | stopped
  | hostShutdown
  | error (k : ErrorKind)
  deriving DecidableEq, Repr

/-- `es`, the engine state (R32, R33). -/
inductive EngineState where
  | running
  /-- `LD Vx, K` has executed; `x` is the recorded destination register (R33). -/
  | waitingForKey (x : Nibble)
  | halted (r : HaltReason)
  deriving DecidableEq, Repr

/-- `mem` (R29): (address, byte) pairs in canonical form (`Memory.wf` in Machine/Ops.lean): addresses strictly rising
and below 4096, no pair equal to what the address reads as when it is not listed (`resetByte`). -/
abbrev Memory := List Host.Cell

/-- A row of the display, from the top. -/
abbrev Row := Fin (delta% Config.displayH)

/-- A column of the display, from the left. -/
abbrev Column := Fin (delta% Config.displayW)

/-- `disp` (R30): `disp[y][x]`, row `y` of 32 from the top, column `x` of 64 from the left. -/
abbrev Display := Vector (Vector Bool (delta% Config.displayW)) (delta% Config.displayH)

/-- One entry of `report` (R37): the address an unsupported opcode was fetched from, and the opcode. -/
structure Report where
  address : CodeAddr
  opcode : Opcode
  deriving DecidableEq, Repr

/-- The machine state (R20). Every field but `draws` is a component of R20; `draws` is the model's own. -/
structure State where
  /-- `V[0..15]` (R21); `V[15]` is `VF` (R22). -/
  v : Vector Byte (delta% Config.numV)
  /-- `I` (R23). -/
  i : IndexWord
  /-- `pc` (R24). -/
  pc : CodeAddr
  /-- `sp` (R25): the number of return addresses on the call stack, 0 to 16 (log entry 4, DESIGN CHOICE: the type holds
  those values only). -/
  sp : Fin ((delta% Config.stackDepth) + 1)
  /-- `stack[0..15]` (R26). -/
  stack : Vector StackEntry (delta% Config.stackDepth)
  /-- `DT` (R27). -/
  dt : Byte
  /-- `ST` (R28). -/
  st : Byte
  /-- `mem[0..4095]` (R29). -/
  mem : Memory
  /-- `disp` (R30). -/
  disp : Display
  /-- `keys[0..15]` (R31): true while the key is held down. -/
  keys : Vector Bool (delta% Config.numKeys)
  /-- `es` (R32). -/
  es : EngineState
  /-- `cfg` (R35, R36). -/
  cfg : QuirkConfig
  /-- `report` (R37), in order of occurrence. -/
  report : List Report
  /-- The model's own: how many random bytes `RND` has drawn; it selects the next free value (log entry
  2, DESIGN CHOICE). -/
  draws : Nat
  deriving DecidableEq, Repr

/-- The reasons a step can stop with a fault: NONE. Every error the spec gives the machine is an entry into
`Halted(kind)` (R281), which is a next state; no other stop is described. The type is closed and has no constructor,
so nothing raises a fault (safe: nothing is cut short; log entry 3, DEDUCED). -/
inductive Fault where
  deriving DecidableEq, Repr

/-- The reasons a step can be refused. -/
inductive Refusal where
  /-- An instruction without a meaning, rejected by name in an arm of `exec`. No arm raises it: all 35 instructions
  have their meaning. Raising it would be safe (the model would stop where the machine goes on). -/
  | notModelled (mnemonic : String)
  deriving DecidableEq, Repr

/-- What a meaning and a step answer. -/
abbrev Answer := Host.Outcome State Fault Refusal

/-- Nothing lit (R39). -/
def Display.blank : Display :=
  Vector.replicate (delta% Config.displayH) (Vector.replicate (delta% Config.displayW) false)

/-- The reset of R330: every component of R39 but `cfg`, which reset does not touch. Memory lists nothing: an
unlisted address reads as its reset content (font bytes, else 0). `draws` is carried over, so that a new session
draws further values (log entries 2 and 5). -/
def State.resetWith (cfg : QuirkConfig) (draws : Nat) : State where
  v := Vector.replicate (delta% Config.numV) 0
  i := 0
  pc := BitVec.ofNat _ Config.loadOffset
  sp := 0
  stack := Vector.replicate (delta% Config.stackDepth) 0
  dt := 0
  st := 0
  mem := []
  disp := Display.blank
  keys := Vector.replicate (delta% Config.numKeys) false
  es := .running
  cfg := cfg
  report := []
  draws := draws

/-- The machine right after reset, with the configuration no `configure` ever changed (R35, R36): what `load` of an
empty image leaves on a new machine (log entry 6, DESIGN CHOICE). -/
def State.reset : State := State.resetWith {} 0

end Sys2Proof.Machine
end

