-- ==== Sys2Proof/Machine/Ops.lean ====
section
/-!
DEFINITION. The named operations over registers, memory, display, keys and call stack, the entry into `Halted`
(spec/60_exceptions.md R281) and the fetch of an instruction's bytes. A step and every meaning reach the state
through these.
-/

namespace Sys2Proof.Machine

/-! ### General registers (R7, R21) -/

/-- `V[x]`. -/
def State.getV (s : State) (x : Nibble) : Byte := s.v[x.toNat]'(x.isLt)

/-- `V[x] <- b`. No register is hardwired (R21). -/
def State.setV (s : State) (x : Nibble) (b : Byte) : State := { s with v := s.v.set x.toNat b x.isLt }

/-- `VF` (R22). -/
def State.vf (s : State) : Byte := s.getV Config.flagReg

/-- `VF <- b`. -/
def State.setVf (s : State) (b : Byte) : State := s.setV Config.flagReg b

/-- `V[0], …, V[x]`, in order. -/
def State.regsUpTo (s : State) (x : Nibble) : List Byte := s.v.toList.take (x.toNat + 1)

/-! ### Memory (spec/20_memory.md; R8) -/

/-- `FONT_BASE` (R5, R69). -/
def fontBase : Nat := Config.fontBase.val

/-- `FONT_DATA[k]` (R5, R69); 0 for a `k` above 79, which is never asked for. -/
def fontByte (k : Nat) : Byte := if h : k < Config.fontLen then Config.fontByte ⟨k, h⟩ else 0

/-- What an unlisted address reads as: the reset content of R39 before an image is loaded. The font occupies
`FONT_BASE` to `FONT_BASE + 79`, all below `LOAD_OFFSET`; every other byte is zero (R68, R69; log entry 5,
DESIGN CHOICE). -/
def resetByte (a : Nat) : Byte :=
  if Config.loadOffset ≤ a then 0
  else if fontBase ≤ a ∧ a < fontBase + Config.fontLen then fontByte (a - fontBase)
  else 0

/-- `mem[a]`. -/
def Memory.read (m : Memory) (a : Nat) : Byte :=
  match m with
  | [] => resetByte a
  | (b, w) :: t => if b = a then w else Memory.read t a

/-- Put `v` at `a` in front of the cells `t`; a value that `a` reads as anyway is not
listed. -/
def Memory.consCell (a : Nat) (v : Byte) (t : Memory) : Memory :=
  if v = resetByte a then t else (a, v) :: t

/-- `mem[a] <- v` on a valid address: the cell goes before the first one above `a`, and no other cell of `a` stays. -/
def Memory.put (m : Memory) (a : Nat) (v : Byte) : Memory :=
  match m with
  | [] => Memory.consCell a v []
  | (b, w) :: t =>
    if b < a then (b, w) :: Memory.put t a v
    else Memory.consCell a v (((b, w) :: t).filter fun c => c.1 != a)

/-- `MemWrite(a, 1, v)` (R8) without its range check, which every instruction makes for all its bytes before its first
write (R61, R288). An address that does not exist holds no byte: writing there changes nothing
(never reached; log entry 5). -/
def Memory.write (m : Memory) (a : Nat) (v : Byte) : Memory :=
  if a < Config.memSize then m.put a v else m

/-- Bytes at ascending addresses from `a` on, written in that order (R64). -/
def Memory.writeBytes (m : Memory) (a : Nat) (bytes : List Byte) : Memory :=
  match bytes with
  | [] => m
  | b :: rest => Memory.writeBytes (m.write a b) (a + 1) rest

/-- The `n` bytes at `a`, `a + 1`, …, in order (R64). -/
def Memory.readBytes (m : Memory) (a n : Nat) : List Byte := (List.range n).map fun k => m.read (a + k)

/-- The canonical form of memory (log entry 5, DESIGN CHOICE). -/
def Memory.wf : Memory → Bool
  | [] => true
  | (a, v) :: t =>
    decide (a < Config.memSize) && decide (v ≠ resetByte a) && t.all (fun c => decide (a < c.1)) && Memory.wf t

/-- `InRange(addr, count)` (R8), on natural numbers. -/
def inRange (addr count : Nat) : Bool := count = 0 || addr + count ≤ Config.memSize

/-! ### Entry into `Halted` -/

/-- `raise K` for a fatal kind (R281): the engine state alone changes; control goes nowhere, nothing is saved. There
is no return from it (R289): only `load` leaves `Halted`. What the failing operation leaves is the spec's decision D6
(log entries 3 and 9). -/
def State.raise (s : State) (k : ErrorKind) : State := { s with es := .halted (.error k) }

/-- The operation ends at once by raising `k` unless `ok` holds (R9: the check comes before the first write). -/
def checked (ok : Bool) (k : ErrorKind) (s : State) (body : State → Answer) : Answer :=
  if ok then body s else .next (s.raise k)

/-! ### Program counter and call stack -/

/-- `pc <- (pc + 2) mod 65536` (R122): the advance of a fetch, and once more for a taken skip (R174). -/
def State.advance (s : State) : State := { s with pc := s.pc + 2 }

/-- `pc <- target`; no check of range or evenness (R170). -/
def State.jump (s : State) (target : CodeAddr) : State := { s with pc := target }

/-- A taken skip advances `pc` by an extra two bytes (spec/42_branch.md R174). -/
def State.skipIf (s : State) (c : Bool) : State := if c then s.advance else s

/-- `stack[sp] <- a; sp <- sp + 1` when the call stack is not full, else `none` (R172). -/
def State.push (s : State) (a : StackEntry) : Option State :=
  if h : s.sp.val < (delta% Config.stackDepth) then
    some { s with stack := s.stack.set s.sp.val a h, sp := ⟨s.sp.val + 1, Nat.succ_lt_succ h⟩ }
  else none

/-- `sp <- sp - 1` and the entry `stack[sp]`, or `none` when the call stack is empty (R173). The entry keeps its value
in `stack`. -/
def State.pop (s : State) : Option (StackEntry × State) :=
  if h : s.sp.val = 0 then none
  else
    have hlt : s.sp.val - 1 < (delta% Config.stackDepth) :=
      Nat.sub_one_lt_of_le (Nat.pos_of_ne_zero h) (Nat.le_of_lt_succ s.sp.isLt)
    some (s.stack[s.sp.val - 1], { s with sp := ⟨s.sp.val - 1, Nat.lt_succ_of_lt hlt⟩ })

/-- `sp` as the register of `V_BITS` bits that R25 names: no value is lost (`State.toNat_spByte`). -/
def State.spByte (s : State) : Byte := BitVec.ofNat _ s.sp.val

/-! ### Keys and display -/

/-- `keys[k]`: the query `is_pressed` of spec/48_host_operations.md R259, and what `SKP` and `SKNP` test. -/
def State.isPressed (s : State) (k : Nibble) : Bool := s.keys[k.toNat]'(k.isLt)

/-- `disp[y][x]`. -/
def Display.pixel (d : Display) (y : Row) (x : Column) : Bool := d[y][x]

/-- `disp[y][x] <- not disp[y][x]`. -/
def Display.toggle (d : Display) (y : Row) (x : Column) : Display :=
  d.set y (d[y].set x (!d.pixel y x))

/-! ### Fetch (spec/40_cycle.md R121) -/

/-- Both bytes of the instruction at `pc` exist: `pc ≤ MEM_SIZE - 2`. -/
def State.canFetch (s : State) : Bool := s.pc.toNat ≤ Config.memSize - 2

/-- `op <- MemRead(pc, 2)`: the byte at the lower address is the high byte (R63). Evenness is not tested (R65; log
entry 8, DESIGN CHOICE). -/
def State.fetchWord (s : State) : Opcode := combine (s.mem.read s.pc.toNat) (s.mem.read (s.pc.toNat + 1))

/-- The word `op` stored where the next fetch reads it, and the engine running, which is all a fetch needs. -/
def State.placeWord (s : State) (op : Opcode) : State :=
  { s with mem := s.mem.writeBytes s.pc.toNat [highByte op, lowByte op], es := .running }

end Sys2Proof.Machine
end

