-- ==== Sys2Proof/Machine/Operands.lean ====
section
/-!
DEFINITION. The operand forms (spec/30_encoding.md R93, spec/43_memory_index.md R196): registers by field value,
unsigned immediates zero-extended, memory through `I` with an ascending offset, and the two operands the quirks select.
-/

namespace Sys2Proof.Machine

/-- `zext(NNN)` to the width of the register it goes to, `pc` or `I` (R93). -/
def addrOperand {w : Nat} (nnn : Addr) : BitVec w := nnn.setWidth w

/-- `zext(b)` of a register's byte to the width of `pc` (R178). -/
def byteOperand (b : Byte) : CodeAddr := b.setWidth _

/-- The effective address of an access's first byte: `I` as a natural number; byte `k` is at `I + k`, with no wrap
(R196). -/
def effAddr (s : State) : Nat := s.i.toNat

/-- The source of `SHR` and `SHL`: `V[Y]` under `q_shift_vy`, else `V[X]` (R149, R151). -/
def shiftSource (s : State) (x y : Nibble) : Byte := if s.cfg.qShiftVy then s.getV y else s.getV x

/-- The top nibble of an address field, read as a register index (R93, R178). -/
def topNibble (nnn : Addr) : Nibble := nnn.extractLsb' 8 4

/-- The offset of `JP V0, addr`: `V[X]` under `q_jump_vx`, else `V[0]` (R178). -/
def jumpOffset (s : State) (nnn : Addr) : Byte := if s.cfg.qJumpVx then s.getV (topNibble nnn) else s.getV 0

/-- The key a register selects: its low four bits (spec/46_input.md R233; the spec's decision D11). -/
def keyOperand (s : State) (x : Nibble) : Nibble := (s.getV x).setWidth _

/-- The glyph address of `LD F, Vx`: `FONT_BASE + 5 * V[X][3:0]` (R192; the spec's decisions D9, D12). -/
def glyphAddr (b : Byte) : IndexWord := BitVec.ofNat _ (fontBase + Config.glyphH * (b.toNat % 16))

/-- The decimal digits of a byte: hundreds, tens, units (R193). -/
def bcdDigits (b : Byte) : List Byte :=
  [BitVec.ofNat _ (b.toNat / 100), BitVec.ofNat _ (b.toNat / 10 % 10), BitVec.ofNat _ (b.toNat % 10)]

/-- `I <- (I + n) mod 2 ^ I_BITS` (R194, R195, R191). -/
def State.addToI (s : State) (n : Nat) : State := { s with i := BitVec.ofNat _ (s.i.toNat + n) }

/-- The post-modification of `I` by a block transfer of `V[0]` to `V[x]`: `X + 1` under `q_index_increment`, else
nothing (R194, R195). -/
def State.bumpIndex (s : State) (x : Nibble) : State :=
  if s.cfg.qIndexIncrement then s.addToI (x.toNat + 1) else s

end Sys2Proof.Machine
end

