-- ==== Sys2Proof/Machine/Flags.lean ====
section
/-!
DEFINITION. The arithmetic results and flags (spec/41_arithmetic_logic.md R140, R153). Each result is computed exactly
on natural numbers and narrowed to `V_BITS` bits at the end.
-/

namespace Sys2Proof.Machine

/-- A flag's byte: 1 or 0 (R22). -/
def flagByte (b : Bool) : Byte := if b then 1 else 0

/-- `(a + b) mod 256`. -/
def sumByte (a b : Byte) : Byte := BitVec.ofNat _ (a.toNat + b.toNat)

/-- Carry: `a + b ≥ 256`. -/
def carry (a b : Byte) : Bool := 2 ^ (delta% Config.vBits) ≤ a.toNat + b.toNat

/-- `(a + 256 - b) mod 256`. -/
def diffByte (a b : Byte) : Byte := BitVec.ofNat _ (a.toNat + 2 ^ (delta% Config.vBits) - b.toNat)

/-- No borrow in `a - b`: `a ≥ b`. -/
def noBorrow (a b : Byte) : Bool := b.toNat ≤ a.toNat

/-- `a div 2`: bit 7 becomes 0. -/
def shrByte (a : Byte) : Byte := a >>> 1

/-- The bit a right shift moves out: `a[0]`. -/
def shrOut (a : Byte) : Bool := a.getLsbD 0

/-- `(2·a) mod 256`: bit 0 becomes 0. -/
def shlByte (a : Byte) : Byte := a <<< 1

/-- The bit a left shift moves out: the top bit, `a[7]`. -/
def shlOut (a : Byte) : Bool := a.getLsbD ((delta% Config.vBits) - 1)

/-- `WriteResultAndFlag` (R140): the flag is written last, so that it wins when `X` = 15, unless `q_result_last`. -/
def State.writeResultAndFlag (s : State) (x : Nibble) (result : Byte) (flag : Bool) : State :=
  if s.cfg.qResultLast then (s.setVf (flagByte flag)).setV x result
  else (s.setV x result).setVf (flagByte flag)

end Sys2Proof.Machine
end

