-- ==== Sys2Proof/Machine/Arith.lean ====
section
/-!
DEFINITION. The arithmetic and logic instructions (spec/41_arithmetic_logic.md R141 to R152). Each reads all its
sources from the state before it writes (R140); none changes `pc` and none raises.
-/

namespace Sys2Proof.Machine

/-- `LD Vx, byte` (R141). -/
def execLdByte (x : Nibble) (nn : Byte) (s : State) : Answer := .next (s.setV x nn)

/-- `ADD Vx, byte` (R142): no flag is written. -/
def execAddByte (x : Nibble) (nn : Byte) (s : State) : Answer := .next (s.setV x (sumByte (s.getV x) nn))

/-- `LD Vx, Vy` (R143). -/
def execLdReg (x y : Nibble) (s : State) : Answer := .next (s.setV x (s.getV y))

/-- `OR Vx, Vy` (R144): `VF` is not reset. -/
def execOrReg (x y : Nibble) (s : State) : Answer := .next (s.setV x (s.getV x ||| s.getV y))

/-- `AND Vx, Vy` (R145). -/
def execAndReg (x y : Nibble) (s : State) : Answer := .next (s.setV x (s.getV x &&& s.getV y))

/-- `XOR Vx, Vy` (R146). -/
def execXorReg (x y : Nibble) (s : State) : Answer := .next (s.setV x (s.getV x ^^^ s.getV y))

/-- `ADD Vx, Vy` (R147): `VF` is the carry. -/
def execAddReg (x y : Nibble) (s : State) : Answer :=
  .next (s.writeResultAndFlag x (sumByte (s.getV x) (s.getV y)) (carry (s.getV x) (s.getV y)))

/-- `SUB Vx, Vy` (R148): `V[X] - V[Y]`, `VF` is 1 when there is no borrow. -/
def execSubReg (x y : Nibble) (s : State) : Answer :=
  .next (s.writeResultAndFlag x (diffByte (s.getV x) (s.getV y)) (noBorrow (s.getV x) (s.getV y)))

/-- `SHR Vx, Vy` (R149): one place to the right, `VF` is the bit shifted out. -/
def execShr (x y : Nibble) (s : State) : Answer :=
  .next (s.writeResultAndFlag x (shrByte (shiftSource s x y)) (shrOut (shiftSource s x y)))

/-- `SUBN Vx, Vy` (R150): `V[Y] - V[X]`, `VF` is 1 when there is no borrow. -/
def execSubnReg (x y : Nibble) (s : State) : Answer :=
  .next (s.writeResultAndFlag x (diffByte (s.getV y) (s.getV x)) (noBorrow (s.getV y) (s.getV x)))

/-- `SHL Vx, Vy` (R151): one place to the left, `VF` is the bit shifted out. -/
def execShl (x y : Nibble) (s : State) : Answer :=
  .next (s.writeResultAndFlag x (shlByte (shiftSource s x y)) (shlOut (shiftSource s x y)))

/-- The next random byte (R152), a free value, and the state in which it has been drawn (log entry 2). -/
def State.draw (s : State) : Byte × State := (Config.rnd s.draws, { s with draws := s.draws + 1 })

/-- `RND Vx, byte` (R152): the drawn byte masked with the immediate. -/
def execRnd (x : Nibble) (nn : Byte) (s : State) : Answer := .next (s.draw.2.setV x (s.draw.1 &&& nn))

end Sys2Proof.Machine
end

