-- ==== Sys2Proof/Machine/Branch.lean ====
section
/-!
DEFINITION. The branch instructions (spec/42_branch.md R170 to R178). On entry `pc` is already the address of the
instruction plus 2; a target is neither range-checked nor tested for evenness when it is written (R170).
-/

namespace Sys2Proof.Machine

/-- `JP addr` (R171). -/
def execJp (nnn : Addr) (s : State) : Answer := .next (s.jump (addrOperand nnn))

/-- `CALL addr` (R172): the return address pushed is the advanced `pc`; a full call stack raises `StackOverflow`. -/
def execCall (nnn : Addr) (s : State) : Answer :=
  match s.push s.pc with
  | some t => .next (t.jump (addrOperand nnn))
  | none => .next (s.raise .stackOverflow)

/-- `RET` (R173): an empty call stack raises `StackUnderflow`. -/
def execRet (s : State) : Answer :=
  match s.pop with
  | some (a, t) => .next (t.jump a)
  | none => .next (s.raise .stackUnderflow)

/-- `SE Vx, byte` (R174). -/
def execSeByte (x : Nibble) (nn : Byte) (s : State) : Answer := .next (s.skipIf (s.getV x == nn))

/-- `SNE Vx, byte` (R175). -/
def execSneByte (x : Nibble) (nn : Byte) (s : State) : Answer := .next (s.skipIf (s.getV x != nn))

/-- `SE Vx, Vy` (R176). -/
def execSeReg (x y : Nibble) (s : State) : Answer := .next (s.skipIf (s.getV x == s.getV y))

/-- `SNE Vx, Vy` (R177). -/
def execSneReg (x y : Nibble) (s : State) : Answer := .next (s.skipIf (s.getV x != s.getV y))

/-- `JP V0, addr` (R178): the sum is taken modulo 65536 and not reduced to 12 bits. -/
def execJpV0 (nnn : Addr) (s : State) : Answer :=
  .next (s.jump (addrOperand nnn + byteOperand (jumpOffset s nnn)))

end Sys2Proof.Machine
end

