-- ==== Sys2Proof/Machine/Draw.lean ====
section
/-!
DEFINITION. The display buffer's operations and the draw instruction (spec/44_draw.md R210, R211).
-/

namespace Sys2Proof.Machine

/-- What the loops of R210 carry: the buffer, and whether a set pixel has been unset. -/
structure Canvas where
  disp : Display
  collided : Bool
  deriving DecidableEq, Repr

/-- One sprite bit that is 1: the pixel is exclusive-ored with 1, and a set pixel about to be unset is a collision. -/
def Canvas.plot (a : Canvas) (y : Row) (x : Column) : Canvas where
  disp := a.disp.toggle y x
  collided := a.collided || a.disp.pixel y x

/-- The column of bit `c` of a sprite row: columns wrap under every configuration. -/
def spriteColumn (x0 c : Nat) : Column := Fin.ofNat _ (x0 + c)

/-- The row of sprite row `r`: it wraps to the top (by default; `q_clip_rows` drops it, see `drawRows`). -/
def spriteRow (y0 r : Nat) : Row := Fin.ofNat _ (y0 + r)

/-- Columns `c`, `c + 1`, … of one sprite row; bit 7, the top one, is the leftmost pixel. -/
def Canvas.drawBits (a : Canvas) (x0 : Nat) (y : Row) (row : Byte) (cols : List Nat) : Canvas :=
  match cols with
  | [] => a
  | c :: rest =>
    Canvas.drawBits (if row.getLsbD (Config.spriteW - 1 - c) then a.plot y (spriteColumn x0 c) else a) x0 y row rest

/-- The `SPRITE_W` columns of one sprite row. -/
def Canvas.drawRow (a : Canvas) (x0 : Nat) (y : Row) (row : Byte) : Canvas :=
  a.drawBits x0 y row (List.range Config.spriteW)

/-- Sprite rows `r`, `r + 1`, …: one beyond the bottom edge is dropped under `q_clip_rows`, else it wraps. -/
def Canvas.drawRows (a : Canvas) (clip : Bool) (x0 y0 r : Nat) (rows : List Byte) : Canvas :=
  match rows with
  | [] => a
  | row :: rest =>
    Canvas.drawRows
      (if clip && decide ((delta% Config.displayH) ≤ y0 + r) then a else a.drawRow x0 (spriteRow y0 r) row)
      clip x0 y0 (r + 1) rest

/-- `draw(x, y, sprite_rows) -> collided` (R211): the start coordinates are reduced modulo the grid. -/
def Display.draw (d : Display) (clip : Bool) (x y : Nat) (rows : List Byte) : Canvas :=
  Canvas.drawRows ⟨d, false⟩ clip (x % (delta% Config.displayW)) (y % (delta% Config.displayH)) 0 rows

/-- `DRW Vx, Vy, nibble` (R210): all `N` row addresses are range-checked, the coordinates are read before `VF` is
written, and `VF` is written always. -/
def execDrw (x y n : Nibble) (s : State) : Answer :=
  checked (inRange (effAddr s) n.toNat) .outOfBounds s fun s =>
    let c := s.disp.draw s.cfg.qClipRows (s.getV x).toNat (s.getV y).toNat (s.mem.readBytes (effAddr s) n.toNat)
    .next (State.setVf { s with disp := c.disp } (flagByte c.collided))

end Sys2Proof.Machine
end

