-- ==== Sys2Proof/Machine/Index.lean ====
section
/-!
DEFINITION. The memory and index-register instructions (spec/43_memory_index.md R190 to R195). Each one that accesses
memory tests its whole address range first and raises `OutOfBounds` before any write (R196); none changes `pc`.
-/

namespace Sys2Proof.Machine

/-- `LD I, addr` (R190). -/
def execLdI (nnn : Addr) (s : State) : Answer := .next { s with i := addrOperand nnn }

/-- `ADD I, Vx` (R191): modulo 65536, no flag. -/
def execAddI (x : Nibble) (s : State) : Answer := .next (s.addToI (s.getV x).toNat)

/-- `LD F, Vx` (R192). -/
def execLdF (x : Nibble) (s : State) : Answer := .next { s with i := glyphAddr (s.getV x) }

/-- `LD B, Vx` (R193): hundreds, tens, units at `I`, `I + 1`, `I + 2`. -/
def execLdB (x : Nibble) (s : State) : Answer :=
  checked (inRange (effAddr s) 3) .outOfBounds s fun s =>
    .next { s with mem := s.mem.writeBytes (effAddr s) (bcdDigits (s.getV x)) }

/-- `LD [I], Vx` (R194): `V[0]` to `V[x]` at `I` to `I + x`. -/
def execStoreRegs (x : Nibble) (s : State) : Answer :=
  checked (inRange (effAddr s) (x.toNat + 1)) .outOfBounds s fun s =>
    .next (State.bumpIndex { s with mem := s.mem.writeBytes (effAddr s) (s.regsUpTo x) } x)

/-- `V[k], V[k + 1], … <- bytes`, in order (R195). -/
def State.loadV (s : State) (k : Nat) (bytes : List Byte) : State :=
  match bytes with
  | [] => s
  | b :: rest => State.loadV (s.setV (BitVec.ofNat _ k) b) (k + 1) rest

/-- `LD Vx, [I]` (R195): `mem[I]` to `mem[I + x]` into `V[0]` to `V[x]`. -/
def execLoadRegs (x : Nibble) (s : State) : Answer :=
  checked (inRange (effAddr s) (x.toNat + 1)) .outOfBounds s fun s =>
    .next (State.bumpIndex (s.loadV 0 (s.mem.readBytes (effAddr s) (x.toNat + 1))) x)

end Sys2Proof.Machine
end

