-- ==== Sys2Proof/Machine/Input.lean ====
section
/-!
DEFINITION. The input instructions (spec/46_input.md R230 to R233). The engine only reads the key latch (spec/10_state.md
R31).
-/

namespace Sys2Proof.Machine

/-- `SKP Vx` (R230). -/
def execSkp (x : Nibble) (s : State) : Answer := .next (s.skipIf (s.isPressed (keyOperand s x)))

/-- `SKNP Vx` (R231). -/
def execSknp (x : Nibble) (s : State) : Answer := .next (s.skipIf (!s.isPressed (keyOperand s x)))

/-- `LD Vx, K` (R232): the engine waits; the register is written by the key event that releases it (R255). -/
def execLdVxK (x : Nibble) (s : State) : Answer := .next { s with es := .waitingForKey x }

end Sys2Proof.Machine
end

