-- ==== Sys2Proof/Machine/System.lean ====
section
/-!
DEFINITION. The system instructions and the unsupported opcode (spec/47_system.md R240 to R242).
-/

namespace Sys2Proof.Machine

/-- `CLS` (R240): every pixel false. -/
def execCls (s : State) : Answer := .next { s with disp := Display.blank }

/-- `STOP` (R241): a clean halt, no error. -/
def execStop (s : State) : Answer := .next { s with es := .halted .stopped }

/-- An unsupported opcode (R242): fatal when `cfg.strict`, else reported and otherwise a no-op. `pc0` is `pc - 2`. -/
def execUnsupported (op : Opcode) (s : State) : Answer :=
  if s.cfg.strict then .next (s.raise .unsupportedInstruction)
  else .next { s with report := s.report ++ [⟨s.pc - 2, op⟩] }

end Sys2Proof.Machine
end

