-- ==== Sys2Proof/Machine/Timer.lean ====
section
/-!
DEFINITION. The timer instructions (spec/45_timer.md R220 to R222). The countdown is no instruction: it is the host
operation `tick_timers` (Machine/Ports.lean).
-/

namespace Sys2Proof.Machine

/-- `LD Vx, DT` (R220). -/
def execLdVxDt (x : Nibble) (s : State) : Answer := .next (s.setV x s.dt)

/-- `LD DT, Vx` (R221). -/
def execLdDtVx (x : Nibble) (s : State) : Answer := .next { s with dt := s.getV x }

/-- `LD ST, Vx` (R222). -/
def execLdStVx (x : Nibble) (s : State) : Answer := .next { s with st := s.getV x }

end Sys2Proof.Machine
end

