-- ==== Sys2Proof/Machine/Cycle.lean ====
section
/-!
DEFINITION. One cycle of the running engine (spec/40_cycle.md R121 to R124): fetch, advance, decode, execute.
-/

namespace Sys2Proof.Machine

/-- Stages 2 and 3 on the fetched word (R123, R124), in a state whose `pc` has been advanced (log entry 14). -/
def execDecoded (d : Decoded) (s : State) : Answer :=
  match d with
  | .supported i => exec i s
  | .unsupported op => execUnsupported op s

/-- One cycle: a fetch that cannot read both bytes raises `OutOfBounds` with `pc` unchanged (R121); otherwise `pc`
advances before the execution (R122). -/
def cycle (s : State) : Answer :=
  checked s.canFetch .outOfBounds s fun s => execDecoded (decode s.fetchWord) s.advance

/-- A step in `WaitingForKey` or `Halted` changes nothing (R125). -/
def idle (s : State) : Answer := .next s

end Sys2Proof.Machine
end

