-- ==== Sys2Proof/Machine/Step.lean ====
section
/-!
DEFINITION. The step of the machine (spec/40_cycle.md R120) and the placing of an instruction where it fetches next.
-/

namespace Sys2Proof.Machine

/-- `step` (R120): one cycle when `Running`, nothing in the two other engine states. -/
def step (s : State) : Host.Outcome State Fault Refusal :=
  match s.es with
  | .running => cycle s
  | .waitingForKey _ => idle s
  | .halted _ => idle s

/-- `s` with the instruction of table bits `w` stored where `step` fetches next, and the engine running
(log entry 6). -/
def State.withFetchWord (s : State) (nbits w : Nat) : State :=
  match tableWord nbits w with
  | some op => s.placeWord op
  | none => s

end Sys2Proof.Machine
end

