-- ==== Sys2Proof/Machine/Ports.lean ====
section
/-!
DEFINITION. The host operations, the machine's ports (spec/48_host_operations.md R250 to R262): each as an operation
on the state, and the machine instance as what the host may apply to it, one operation at a time (R261). They stand
beside `step`, not in it (log entry 7, DESIGN CHOICE).
-/

namespace Sys2Proof.Machine

/-- The reset and image copy of `load` (R251) on a machine with configuration `cfg`: the state it leaves. An image
that does not fit leaves the reset state halted, with no image byte written (R298). -/
def loadImage (cfg : QuirkConfig) (draws : Nat) (image : List Byte) : State :=
  let s := State.resetWith cfg draws
  if Config.loadOffset + image.length > Config.memSize then s.raise .loadError
  else { s with mem := s.mem.writeBytes Config.loadOffset image }

/-- `load(image)` on a machine in a session (R251): a new session; `cfg` survives. -/
def State.load (s : State) (image : List Byte) : State := loadImage s.cfg s.draws image

/-- A timer's decrement, floored at zero (R253). -/
def countDown (d : Byte) : Byte := if d = 0 then 0 else d - 1

/-- `tick_timers()` (R253): both timers together, in every engine state. -/
def State.tickTimers (s : State) : State := { s with dt := countDown s.dt, st := countDown s.st }

/-- `keys[key] <- pressed` (R254; `set_key` of R31). -/
def State.setKey (s : State) (key : Nibble) (pressed : Bool) : State :=
  { s with keys := s.keys.set key.toNat pressed key.isLt }

/-- The release of the key wait (R255): the key's value into the recorded register, and back to `Running`. -/
def State.releaseWait (s : State) (x key : Nibble) : State :=
  { s.setV x (key.setWidth _) with es := .running }

/-- `deliver_key_event(key, pressed)` (R254): the latch always; a press also ends a key wait. -/
def State.deliverKeyEvent (s : State) (key : Nibble) (pressed : Bool) : State :=
  match s.es, pressed with
  | .waitingForKey x, true => (s.setKey key pressed).releaseWait x key
  | _, _ => s.setKey key pressed

/-- `shutdown()` (R258): an engine already halted keeps its reason. -/
def State.shutdown (s : State) : State :=
  match s.es with
  | .halted _ => s
  | _ => { s with es := .halted .hostShutdown }

/-- `display_snapshot()` (R256). -/
def State.displaySnapshot (s : State) : Display := s.disp

/-- `sound_timer_active()` (R257). -/
def State.soundTimerActive (s : State) : Bool := s.st != 0

/-- `any_pressed()` (R259): the lowest-numbered key that is down, if any. -/
def State.anyPressed (s : State) : Option Nibble :=
  ((List.range (delta% Config.numKeys)).map (BitVec.ofNat 4)).find? s.isPressed

/-- What the operation in progress returns when the state went from `s` to `t` in one `step` (R126): the error kind
when the cycle raised one, else success. A cycle raises exactly when it takes a running engine to `Halted(kind)`. -/
def stepResult (s t : State) : Option ErrorKind :=
  match s.es, t.es with
  | .running, .halted (.error k) => some k
  | _, _ => none

/-- The operations of the host table (R260). -/
inductive HostOp where
  | configure (cfg : QuirkConfig)
  | load (image : List Byte)
  | step
  | tickTimers
  | deliverKeyEvent (key : Nibble) (pressed : Bool)
  | shutdown
  | displaySnapshot
  | soundTimerActive
  | isPressed (key : Nibble)
  | anyPressed
  deriving DecidableEq, Repr

/-- What an operation hands back (R260). -/
inductive Response where
  | nothing
  | success
  | error (k : ErrorKind)
  | grid (d : Display)
  | bool (b : Bool)
  | key (k : Option Nibble)
  deriving DecidableEq, Repr

/-- A machine instance: created, with nothing but its configuration defined (R331), or holding its one session
(R262). -/
inductive Instance where
  | created (cfg : QuirkConfig)
  | session (s : State)
  deriving DecidableEq, Repr

/-- A `step` as the host sees it: the new state and success or the error kind (R120, R126). A fault or a refusal would
be no move; there is none. -/
def State.hostStep (s : State) : Option (State × Response) :=
  match Machine.step s with
  | .next t =>
    match stepResult s t with
    | none => some (t, .success)
    | some k => some (t, .error k)
  | .fault _ => none
  | .refused _ => none

/-- The result of `load` (R251), from the state it left. -/
def loadResult (t : State) : Response := if t.es = .halted (.error .loadError) then .error .loadError else .success

/-- One host operation on a machine in a session; `none` is no move (`configure` after the first `load`, R250). -/
def State.apply (s : State) (op : HostOp) : Option (State × Response) :=
  match op with
  | .configure _ => none
  | .load image => some (s.load image, loadResult (s.load image))
  | .step => s.hostStep
  | .tickTimers => some (s.tickTimers, .nothing)
  | .deliverKeyEvent key pressed => some (s.deliverKeyEvent key pressed, .nothing)
  | .shutdown => some (s.shutdown, .nothing)
  | .displaySnapshot => some (s, .grid s.displaySnapshot)
  | .soundTimerActive => some (s, .bool s.soundTimerActive)
  | .isPressed key => some (s, .bool (s.isPressed key))
  | .anyPressed => some (s, .key s.anyPressed)

/-- One host operation on an instance. Before the first `load` only `configure` and `load` have a move (R331,
R332). -/
def Instance.apply (m : Instance) (op : HostOp) : Option (Instance × Response) :=
  match m with
  | .created cfg =>
    match op with
    | .configure cfg' => some (.created cfg', .nothing)
    | .load image => some (.session (loadImage cfg 0 image), loadResult (loadImage cfg 0 image))
    | _ => none
  | .session s =>
    match s.apply op with
    | some (t, r) => some (.session t, r)
    | none => none

/-- A new instance: every field of the configuration at its default (R35, R36). -/
def Instance.new : Instance := .created {}

/-- A schedule: host operations applied one at a time, in order (R261). `none` when one of them has no move. -/
def Instance.run (m : Instance) (ops : List HostOp) : Option Instance :=
  match ops with
  | [] => some m
  | op :: rest =>
    match m.apply op with
    | some (m', _) => Instance.run m' rest
    | none => none

end Sys2Proof.Machine
end

