-- ==== Sys2Proof/Safety.lean ====
section
/-!
DEFINITION. The terms claims are stated in: how a run ends (spec/70_reset_and_hazards.md R340), what one transition
leaves unchanged (frames), the invariants, and the conditions under which a cycle raises (spec/60_exceptions.md R282).
-/

namespace Sys2Proof.Machine

/-! ### Ends of a run (R340) -/

/-- The run has ended: `es` = `Halted(reason)`. -/
def State.ended (s : State) : Prop := ∃ r, s.es = .halted r

/-- A clean end: the reason is `Stopped`. -/
def State.cleanEnd (s : State) : Prop := s.es = .halted .stopped

/-- A faulted end: the reason is an error kind. It is never a success. -/
def State.faultedEnd (s : State) : Prop := ∃ k, s.es = .halted (.error k)

/-! ### Frames -/

/-- The components of the state, by name. -/
inductive Part where
  | v | i | pc | sp | stack | dt | st | mem | disp | keys | es | cfg | report | draws
  deriving DecidableEq, Repr

/-- A component reads the same in both states: memory address by address, the display pixel by pixel, the registers
and the keys one by one. -/
def Part.Same : Part → State → State → Prop
  | .v, s, t => ∀ k, t.getV k = s.getV k
  | .i, s, t => t.i = s.i
  | .pc, s, t => t.pc = s.pc
  | .sp, s, t => t.sp = s.sp
  | .stack, s, t => ∀ k : Fin (delta% Config.stackDepth), t.stack[k] = s.stack[k]
  | .dt, s, t => t.dt = s.dt
  | .st, s, t => t.st = s.st
  | .mem, s, t => ∀ a, t.mem.read a = s.mem.read a
  | .disp, s, t => ∀ y x, t.disp.pixel y x = s.disp.pixel y x
  | .keys, s, t => ∀ k, t.isPressed k = s.isPressed k
  | .es, s, t => t.es = s.es
  | .cfg, s, t => t.cfg = s.cfg
  | .report, s, t => t.report = s.report
  | .draws, s, t => t.draws = s.draws

/-- Between `s` and `t` no component outside the list has changed. -/
def ChangesOnly (parts : List Part) (s t : State) : Prop := ∀ p, p ∉ parts → p.Same s t

/-- Between `s` and `t` no general register outside the list has changed. -/
def RegsSameBut (xs : List Nibble) (s t : State) : Prop := ∀ k, k ∉ xs → t.getV k = s.getV k

/-- Between `s` and `t` no byte of memory outside the `n` bytes at `a` has changed. -/
def MemSameBut (a n : Nat) (s t : State) : Prop := ∀ b, ¬ (a ≤ b ∧ b < a + n) → t.mem.read b = s.mem.read b

/-- The outcome of an instruction with a result and a flag (R140), as numbers: `x` gets the result and `VF` the flag;
with `x` = 15 the flag wins, or the result under `q_result_last`. Nothing else changes. -/
def ResultAndFlag (s t : State) (x : Nibble) (result flag : Nat) : Prop :=
  (x ≠ 15 → (t.getV x).toNat = result ∧ (t.getV 15).toNat = flag) ∧
    (x = 15 → (t.getV 15).toNat = if s.cfg.qResultLast then result else flag) ∧
    RegsSameBut [x, 15] s t ∧ ChangesOnly [.v] s t

/-- The state a raise of `k` leaves (R281): `es` alone differs. -/
def RaisedTo (k : ErrorKind) (s t : State) : Prop := t = { s with es := .halted (.error k) }

/-! ### Invariants -/

/-- Memory has its canonical form. -/
def State.MemCanonical (s : State) : Prop := s.mem.wf = true

/-- No `pc` and no return address is beyond what the rules can write (R24): 0x10FE and 4096. -/
def State.PcBounded (s : State) : Prop :=
  s.pc.toNat ≤ 0x10FE ∧ ∀ k : Fin (delta% Config.stackDepth), (s.stack[k]).toNat ≤ 4096

/-- `pc` and every return address on the call stack are even (R24, R334). -/
def State.PcEven (s : State) : Prop :=
  s.pc.toNat % 2 = 0 ∧ ∀ k : Fin (delta% Config.stackDepth), k.val < s.sp.val → (s.stack[k]).toNat % 2 = 0

/-- The software rule of R334 for the instruction about to execute: a jump, call or computed-jump target is even. -/
def EvenTarget (s : State) : Decoded → Prop
  | .supported (.jp nnn) => nnn.toNat % 2 = 0
  | .supported (.call nnn) => nnn.toNat % 2 = 0
  | .supported (.jpV0 nnn) => (nnn.toNat + (jumpOffset s nnn).toNat) % 2 = 0
  | _ => True

/-! ### What an instruction may write -/

/-- The six instructions that write `VF` as a side effect (R22). -/
def writesFlag : Instr → Bool
  | .addReg _ _ | .subReg _ _ | .shr _ _ | .subnReg _ _ | .shl _ _ | .drw _ _ _ => true
  | _ => false

/-- `k` is a destination register the instruction names (R141 to R152, R195, R220). -/
def hasDest (i : Instr) (k : Nibble) : Bool :=
  match i with
  | .ldByte x _ | .addByte x _ | .ldReg x _ | .orReg x _ | .andReg x _ | .xorReg x _ | .addReg x _ | .subReg x _
  | .shr x _ | .subnReg x _ | .shl x _ | .rnd x _ | .ldVxDt x => k == x
  | .loadRegs x => k ≤ x
  | _ => false

/-- The components an instruction's execute stage may write: the column 'written by' of R20, for instructions. `es` is
written by `STOP`, by `LD Vx, K` and by a raise. -/
def mayWrite : Instr → Part → Bool
  | .cls, p => p = .disp
  | .ret, p => p = .sp ∨ p = .pc ∨ p = .es
  | .stop, p => p = .es
  | .jp _, p => p = .pc
  | .call _, p => p = .stack ∨ p = .sp ∨ p = .pc ∨ p = .es
  | .seByte _ _, p => p = .pc
  | .sneByte _ _, p => p = .pc
  | .seReg _ _, p => p = .pc
  | .ldByte _ _, p => p = .v
  | .addByte _ _, p => p = .v
  | .ldReg _ _, p => p = .v
  | .orReg _ _, p => p = .v
  | .andReg _ _, p => p = .v
  | .xorReg _ _, p => p = .v
  | .addReg _ _, p => p = .v
  | .subReg _ _, p => p = .v
  | .shr _ _, p => p = .v
  | .subnReg _ _, p => p = .v
  | .shl _ _, p => p = .v
  | .sneReg _ _, p => p = .pc
  | .ldI _, p => p = .i
  | .jpV0 _, p => p = .pc
  | .rnd _ _, p => p = .v ∨ p = .draws
  | .drw _ _ _, p => p = .disp ∨ p = .v ∨ p = .es
  | .skp _, p => p = .pc
  | .sknp _, p => p = .pc
  | .ldVxDt _, p => p = .v
  | .ldVxK _, p => p = .es
  | .ldDtVx _, p => p = .dt
  | .ldStVx _, p => p = .st
  | .addI _, p => p = .i
  | .ldF _, p => p = .i
  | .ldB _, p => p = .mem ∨ p = .es
  | .storeRegs _, p => p = .mem ∨ p = .i ∨ p = .es
  | .loadRegs _, p => p = .v ∨ p = .i ∨ p = .es

/-! ### Sprites (R210) -/

/-- The sprite of `DRW` with operands `x`, `y`, `n` covers the pixel in row `py`, column `px`: some row `r` and column
`c` of it has a 1 bit there, and the row is not dropped by `q_clip_rows`. -/
def SpriteCovers (s : State) (x y n : Nibble) (py : Fin 32) (px : Fin 64) : Prop :=
  ∃ r < n.toNat, ∃ c < 8,
    (s.mem.read (s.i.toNat + r)).getLsbD (7 - c) = true ∧
      px.val = ((s.getV x).toNat % 64 + c) % 64 ∧
      py.val = ((s.getV y).toNat % 32 + r) % 32 ∧
      (s.cfg.qClipRows = true → (s.getV y).toNat % 32 + r < 32)

/-! ### Raising (R282) -/

/-- The condition under which the execute stage of a decoded opcode raises `k`. -/
def ExecRaises (s : State) (d : Decoded) (k : ErrorKind) : Prop :=
  match k with
  | .loadError => False
  | .outOfBounds =>
    (∃ x y n, d = .supported (.drw x y n) ∧ 0 < n.toNat ∧ 4095 < s.i.toNat + n.toNat - 1) ∨
      (∃ x, d = .supported (.ldB x) ∧ 4095 < s.i.toNat + 2) ∨
      (∃ x, d = .supported (.storeRegs x) ∧ 4095 < s.i.toNat + x.toNat) ∨
      (∃ x, d = .supported (.loadRegs x) ∧ 4095 < s.i.toNat + x.toNat)
  | .stackOverflow => (∃ nnn, d = .supported (.call nnn)) ∧ s.sp.val = delta% Config.stackDepth
  | .stackUnderflow => d = .supported .ret ∧ s.sp.val = 0
  | .unsupportedInstruction => (∃ op, d = .unsupported op) ∧ s.cfg.strict = true

/-- The condition under which one cycle from a running state raises `k`: the fetch (`pc > 4094`), or the execute stage
of what it fetched. -/
def CycleRaises (s : State) (k : ErrorKind) : Prop :=
  (k = .outOfBounds ∧ 4094 < s.pc.toNat) ∨ (s.pc.toNat ≤ 4094 ∧ ExecRaises s (decode s.fetchWord) k)

/-! ### Engine states (R32) -/

/-- The engine state after a host operation: the table of R32. -/
def EngineStateAfter (s : State) (op : HostOp) (e : EngineState) : Prop :=
  match op with
  | .step =>
    match s.es with
    | .running =>
      (∃ k, CycleRaises s k ∧ e = .halted (.error k)) ∨
        ((∀ k, ¬ CycleRaises s k) ∧
          match decode s.fetchWord with
          | .supported (.ldVxK x) => e = .waitingForKey x
          | .supported .stop => e = .halted .stopped
          | _ => e = .running)
    | .waitingForKey x => e = .waitingForKey x
    | .halted r => e = .halted r
  | .deliverKeyEvent _ pressed =>
    match s.es, pressed with
    | .waitingForKey _, true => e = .running
    | e', _ => e = e'
  | .shutdown =>
    match s.es with
    | .halted r => e = .halted r
    | _ => e = .halted .hostShutdown
  | .load image => e = if 3584 < image.length then .halted (.error .loadError) else .running
  | _ => e = s.es

/-! ### Cycles of a given instruction -/

/-- The cycle of instruction `i` after its fetch: `pc` advanced, then executed (R122, R124). -/
def cycleOf (i : Instr) (s : State) : Answer := exec i s.advance

/-- The cycles of a list of instructions, one after the other. -/
def cyclesOf (is : List Instr) (s : State) : Answer :=
  match is with
  | [] => .next s
  | i :: rest =>
    match cycleOf i s with
    | .next t => cyclesOf rest t
    | .fault r => .fault r
    | .refused r => .refused r

end Sys2Proof.Machine
end

