-- ==== Sys2Proof/Certificates/Slice0/Obligations.lean ====
section
/-!
DEFINITION. The statements for the provers, from the numbered rules of spec/. Each docstring says what the statement
claims, names the rules it is about, and names every decision of the spec (D<n> of spec/92_eei_decisions.md) or entry
of the assumption log it rests on.
-/

open Sys2Proof Sys2Proof.Machine

/-- For every instruction, with every operand at every value its fields admit, decode of encode is that instruction:
no bit of an operand is dropped or moved (spec/30_encoding.md R91, R92, R95). Every term of Instr is well-formed. -/
def Obligations.DecodeOfEncodeIsTheInstruction : Prop :=
  ∀ i : Instr, decode (encode i) = .supported i

/-- If a word decodes to a supported instruction then the encoding of that instruction is the word: no two words
decode to the same instruction, so no encoding has ignored bits (R97: 5XY1 is not SE Vx, Vy). -/
def Obligations.EncodeOfDecodeIsTheWord : Prop :=
  ∀ (op : Opcode) (i : Instr), decode op = .supported i → encode i = op

/-- For every word: decode answers the variant Unsupported carrying that word if and only if no row of the opcode
table accepts the word, and it never answers Unsupported of another word (R94, R97). That 0NNN words outside 00E0,
00EE and 00FD are unsupported is the spec's decision D29. -/
def Obligations.UnsupportedIsExactlyOutsideTheTable : Prop :=
  ∀ op : Opcode, (decode op = .unsupported op ↔ supportedWord op = false) ∧
    ∀ op', decode op = .unsupported op' → op' = op

/-- The 35 rows of the opcode table are pairwise disjoint as sets of words (R95: 'The supported rows are pairwise
disjoint, so the order of tests does not matter'). -/
def Obligations.TableRowsShareNoWord : Prop :=
  opcodeTable.length = 35 ∧
    opcodeTable.Pairwise fun r r' => ∀ op : Opcode, ¬ (r.accepts op = true ∧ r'.accepts op = true)

/-- One or two words of every family, taken from the spec's decode vectors, decode to the instruction and fields
printed there, and words listed as unsupported decode to Unsupported (spec/95_test_vectors.md section 2.1). -/
def Obligations.WordsOfTheSpecDecodeAsPrinted : Prop :=
  decode 0x00E0 = .supported .cls ∧ decode 0x00FD = .supported .stop ∧ decode 0x2ABC = .supported (.call 0xABC) ∧
    decode 0x3A7F = .supported (.seByte 10 0x7F) ∧ decode 0x8AB6 = .supported (.shr 10 11) ∧
    decode 0xBABC = .supported (.jpV0 0xABC) ∧ decode 0xDAB5 = .supported (.drw 10 11 5) ∧
    decode 0xEAA1 = .supported (.sknp 10) ∧ decode 0xFA15 = .supported (.ldDtVx 10) ∧
    decode 0xFA55 = .supported (.storeRegs 10) ∧ decode 0x5AB1 = .unsupported 0x5AB1 ∧
    decode 0x0123 = .unsupported 0x0123 ∧ decode 0xFA75 = .unsupported 0xFA75

/-- In every state the fetched word is 256 times the byte at pc plus the byte at pc + 1. Nothing in the state or the
configuration switches the order. -/
def Obligations.FetchIsBigEndian : Prop :=
  ∀ s : State,
    s.fetchWord.toNat = 256 * (s.mem.read s.pc.toNat).toNat + (s.mem.read (s.pc.toNat + 1)).toNat

/-- When the engine runs and both bytes exist (pc at most 4094): if they decode to an instruction i, step is exec of
i on the state with pc advanced by 2; if they decode to Unsupported(op), step is the unsupported-opcode rule on that
state. Decode reads the two bytes alone (R121 fetch, R122 advance, R123 decode, R124 dispatch). It holds at an odd
pc too, where the fetch as it stands is the spec's decision D7 and the model's choice, log entry 8 (DESIGN CHOICE).
-/
def Obligations.StepRunsTheDecodedInstruction : Prop :=
  ∀ s : State, s.es = .running → s.pc.toNat ≤ 4094 →
    (∀ i, decode (s.mem.read s.pc.toNat ++ s.mem.read (s.pc.toNat + 1)) = .supported i →
      step s = exec i { s with pc := s.pc + 2 }) ∧
    (∀ op, decode (s.mem.read s.pc.toNat ++ s.mem.read (s.pc.toNat + 1)) = .unsupported op →
      step s = execUnsupported op { s with pc := s.pc + 2 })

/-- When the engine runs and pc exceeds 4094, step answers the state with es Halted(OutOfBounds) and nothing else
changed: that pc stays is the spec's decision D6 (R121; log entry 9, DESIGN CHOICE). In WaitingForKey and in Halted,
step answers the same state (R125) and returns success, the spec's decision D17. -/
def Obligations.StepWithoutAFetch : Prop :=
  ∀ s : State,
    (s.es = .running → 4094 < s.pc.toNat → ∃ t, step s = .next t ∧ RaisedTo .outOfBounds s t) ∧
    (∀ x, s.es = .waitingForKey x → step s = .next s ∧ s.hostStep = some (s, .success)) ∧
    (∀ r, s.es = .halted r → step s = .next s ∧ s.hostStep = some (s, .success))

/-- For every state whatever, step answers a next state, and so does exec for every instruction: no step and no
meaning ends in a fault or a refusal. This is the model's reading of R281 and R282, log entry 3 (DEDUCED): an error
of the spec is an entry into Halted(kind), and Halted(kind) is a next state. -/
def Obligations.EveryStepAnswersANextState : Prop :=
  (∀ s : State, ∃ t, step s = .next t) ∧ ∀ (i : Instr) (s : State), ∃ t, exec i s = .next t

/-- Every step of every state has a result. It is an error k exactly when the engine ran and its cycle raised k;
then es is Halted(k) and k is not LoadError. Otherwise it is success: so a cycle that executed STOP, that entered
WaitingForKey, or that met an unsupported opcode in relaxed mode returns success (R126), and so does a step in
WaitingForKey or in Halted, the spec's decision D17 (R125). The result is read off the states before and after the
step, which is the model's reading, log entry 3 (DEDUCED). -/
def Obligations.HostStepReturnsTheErrorOfTheCycle : Prop :=
  ∀ s : State, ∃ t r, s.hostStep = some (t, r) ∧ step s = .next t ∧
    ((∀ k, r = .error k ↔ (s.es = .running ∧ CycleRaises s k)) ∧
      (∀ k, r = .error k → t.es = .halted (.error k) ∧ k ≠ .loadError) ∧
      (r = .success ↔ ¬ (s.es = .running ∧ ∃ k, CycleRaises s k)))

/-- LD Vx, byte (6XNN) leaves NN in V[X]; ADD Vx, byte (7XNN) leaves (V[X] + NN) mod 256 there; LD Vx, Vy (8XY0)
leaves the old V[Y] there. Each answers a next state for every X, operand and state; no other register, no flag and
no other component changes, and nothing is raised. -/
def Obligations.LoadAndAddImmediateAndCopy : Prop :=
  (∀ (x : Nibble) (nn : Byte) (s : State), decode (0x6#4 ++ x ++ nn) = .supported (.ldByte x nn) ∧
      ∃ t, exec (.ldByte x nn) s = .next t ∧ t.getV x = nn ∧ RegsSameBut [x] s t ∧ ChangesOnly [.v] s t) ∧
    (∀ (x : Nibble) (nn : Byte) (s : State), decode (0x7#4 ++ x ++ nn) = .supported (.addByte x nn) ∧
      ∃ t, exec (.addByte x nn) s = .next t ∧ (t.getV x).toNat = ((s.getV x).toNat + nn.toNat) % 256 ∧
        RegsSameBut [x] s t ∧ ChangesOnly [.v] s t) ∧
    (∀ (x y : Nibble) (s : State), decode (0x8#4 ++ x ++ y ++ 0x0#4) = .supported (.ldReg x y) ∧
      ∃ t, exec (.ldReg x y) s = .next t ∧ t.getV x = s.getV y ∧ RegsSameBut [x] s t ∧ ChangesOnly [.v] s t)

/-- OR (8XY1), AND (8XY2) and XOR (8XY3) leave the bitwise combination of the old V[X] and V[Y] in V[X]. Each
answers a next state always; no other register and no other component changes; VF is not reset. -/
def Obligations.LogicInstructionsCombineBits : Prop :=
  (∀ (x y : Nibble) (s : State), decode (0x8#4 ++ x ++ y ++ 0x1#4) = .supported (.orReg x y) ∧
      ∃ t, exec (.orReg x y) s = .next t ∧ t.getV x = s.getV x ||| s.getV y ∧
        RegsSameBut [x] s t ∧ ChangesOnly [.v] s t) ∧
    (∀ (x y : Nibble) (s : State), decode (0x8#4 ++ x ++ y ++ 0x2#4) = .supported (.andReg x y) ∧
      ∃ t, exec (.andReg x y) s = .next t ∧ t.getV x = s.getV x &&& s.getV y ∧
        RegsSameBut [x] s t ∧ ChangesOnly [.v] s t) ∧
    (∀ (x y : Nibble) (s : State), decode (0x8#4 ++ x ++ y ++ 0x3#4) = .supported (.xorReg x y) ∧
      ∃ t, exec (.xorReg x y) s = .next t ∧ t.getV x = s.getV x ^^^ s.getV y ∧
        RegsSameBut [x] s t ∧ ChangesOnly [.v] s t)

/-- ADD Vx, Vy (8XY4): with a and b the old V[X] and V[Y], the result is (a + b) mod 256 and the flag 1 when the sum
exceeds 255, else 0; with X = 15 the flag stands in VF, or the result under q_result_last. It answers a next state
always; no other register and no other component changes. -/
def Obligations.AddSetsCarry : Prop :=
  ∀ (x y : Nibble) (s : State), decode (0x8#4 ++ x ++ y ++ 0x4#4) = .supported (.addReg x y) ∧
    ∃ t, exec (.addReg x y) s = .next t ∧
      ResultAndFlag s t x (((s.getV x).toNat + (s.getV y).toNat) % 256)
        (if 255 < (s.getV x).toNat + (s.getV y).toNat then 1 else 0)

/-- SUB (8XY5): result (a + 256 - b) mod 256, flag 1 when a is at least b, with a the old V[X] and b the old V[Y].
SUBN (8XY7): the same with a and b exchanged. X = 15 as for ADD. Each answers a next state always; no other register
and no other component changes. -/
def Obligations.SubtractSetsNoBorrow : Prop :=
  (∀ (x y : Nibble) (s : State), decode (0x8#4 ++ x ++ y ++ 0x5#4) = .supported (.subReg x y) ∧
      ∃ t, exec (.subReg x y) s = .next t ∧
        ResultAndFlag s t x (((s.getV x).toNat + 256 - (s.getV y).toNat) % 256)
          (if (s.getV y).toNat ≤ (s.getV x).toNat then 1 else 0)) ∧
    (∀ (x y : Nibble) (s : State), decode (0x8#4 ++ x ++ y ++ 0x7#4) = .supported (.subnReg x y) ∧
      ∃ t, exec (.subnReg x y) s = .next t ∧
        ResultAndFlag s t x (((s.getV y).toNat + 256 - (s.getV x).toNat) % 256)
          (if (s.getV x).toNat ≤ (s.getV y).toNat then 1 else 0))

/-- The source is V[X], or V[Y] under q_shift_vy (which operand each setting selects is the spec's decision D4). SHR
(8XY6): result source div 2, flag source mod 2. SHL (8XYE): result 2 times source mod 256, flag source div 128. X =
15 as for ADD; V[Y] is unchanged unless it is the destination. Each answers a next state always (R149, R151). -/
def Obligations.ShiftsMoveOneBitIntoTheFlag : Prop :=
  ∀ (x y : Nibble) (s : State) (src : Nat),
    src = (if s.cfg.qShiftVy then s.getV y else s.getV x).toNat →
    (decode (0x8#4 ++ x ++ y ++ 0x6#4) = .supported (.shr x y) ∧
      ∃ t, exec (.shr x y) s = .next t ∧ ResultAndFlag s t x (src / 2) (src % 2)) ∧
    (decode (0x8#4 ++ x ++ y ++ 0xE#4) = .supported (.shl x y) ∧
      ∃ t, exec (.shl x y) s = .next t ∧ ResultAndFlag s t x (2 * src % 256) (src / 128))

/-- RND (CXNN) leaves the next drawn byte AND NN in V[X], so every bit clear in NN is clear afterwards and NN = 0
gives 0. The drawn byte is a free value: the statement holds whatever it is (the spec's decision D19, log entry 2).
It answers a next state always; beside V[X] only the model's own draw counter changes, by one, so that the next draw
is another free value (R152). -/
def Obligations.RandomIsAMaskedFreeByte : Prop :=
  ∀ (x : Nibble) (nn : Byte) (s : State), decode (0xC#4 ++ x ++ nn) = .supported (.rnd x nn) ∧
    ∃ t, exec (.rnd x nn) s = .next t ∧ t.getV x = Config.rnd s.draws &&& nn ∧ t.getV x &&& ~~~nn = 0 ∧
      (nn = 0 → t.getV x = 0) ∧ t.draws = s.draws + 1 ∧ RegsSameBut [x] s t ∧ ChangesOnly [.v, .draws] s t

/-- An instruction other than ADD Vx, Vy, SUB, SHR, SUBN, SHL and DRW that does not name V[15] as its destination
leaves VF as it was; one of the six that does not name V[15] and raises nothing leaves 0 or 1 in it (R22). That the
flag register is V[15] is the spec's decision D3. -/
def Obligations.OnlySixInstructionsTouchTheFlag : Prop :=
  ∀ (i : Instr) (s t : State), exec i s = .next t → hasDest i 15 = false →
    (writesFlag i = false → t.getV 15 = s.getV 15) ∧
    (writesFlag i = true → s.es = .running → t.es = .running → t.getV 15 = 0 ∨ t.getV 15 = 1)

/-- JP addr (1NNN) leaves pc = NNN, whatever NNN is (below 0x200, odd, or 0xFFF), and changes no other component. It
answers a next state always. After a jump to 0xFFF a running engine's next step raises OutOfBounds (R171); that this
failed fetch leaves pc and all else as they are is the spec's decision D6 (R121) and log entry 9 (DESIGN CHOICE). -/
def Obligations.JumpSetsPc : Prop :=
  ∀ (nnn : Addr) (s : State), decode (0x1#4 ++ nnn) = .supported (.jp nnn) ∧
    ∃ t, exec (.jp nnn) s = .next t ∧ t.pc.toNat = nnn.toNat ∧ ChangesOnly [.pc] s t ∧
      (nnn = 0xFFF → s.es = .running → ∃ u, step t = .next u ∧ RaisedTo .outOfBounds t u)

/-- CALL (2NNN) with sp below 16: stack[sp] holds the (advanced) pc, sp counts one more, pc = NNN; the other entries
and components are unchanged. With sp = 16: es becomes Halted(StackOverflow) and nothing else changes (R172). The
meaning of sp is the spec's decision D10, and the state after the error its decision D6 and log entry 9 (DESIGN
CHOICE). -/
def Obligations.CallPushesTheReturnAddress : Prop :=
  ∀ (nnn : Addr) (s : State), decode (0x2#4 ++ nnn) = .supported (.call nnn) ∧
    (s.sp.val < 16 → ∃ t, exec (.call nnn) s = .next t ∧ t.pc.toNat = nnn.toNat ∧ t.sp.val = s.sp.val + 1 ∧
      (∀ k : Fin 16, t.stack[k] = if k.val = s.sp.val then s.pc else s.stack[k]) ∧
      ChangesOnly [.stack, .sp, .pc] s t) ∧
    (s.sp.val = 16 → ∃ t, exec (.call nnn) s = .next t ∧ RaisedTo .stackOverflow s t)

/-- RET (00EE) with sp above 0: sp counts one less and pc is the entry stack[sp] of the new sp, which keeps its
value; nothing else changes. With sp = 0: es becomes Halted(StackUnderflow) and nothing else changes (R173). The
meaning of sp is the spec's decision D10, the state after the error its decision D6 and log entry 9 (DESIGN CHOICE);
that the model keeps the popped entry is log entry 11 (DESIGN CHOICE). -/
def Obligations.ReturnPopsTheReturnAddress : Prop :=
  ∀ s : State, decode 0x00EE = .supported .ret ∧
    (0 < s.sp.val → ∃ t, exec .ret s = .next t ∧ t.sp.val = s.sp.val - 1 ∧
      (∀ k : Fin 16, k.val = t.sp.val → t.pc = s.stack[k]) ∧ ChangesOnly [.sp, .pc] s t) ∧
    (s.sp.val = 0 → ∃ t, exec .ret s = .next t ∧ RaisedTo .stackUnderflow s t)

/-- SE Vx, byte (3XNN) adds 2 to pc when V[X] = NN and leaves pc otherwise; SNE Vx, byte (4XNN) does so when V[X]
differs from NN. Each answers a next state always; no other component changes. -/
def Obligations.SkipsComparingAByte : Prop :=
  (∀ (x : Nibble) (nn : Byte) (s : State), decode (0x3#4 ++ x ++ nn) = .supported (.seByte x nn) ∧
      ∃ t, exec (.seByte x nn) s = .next t ∧ t.pc = (if s.getV x = nn then s.pc + 2 else s.pc) ∧
        ChangesOnly [.pc] s t) ∧
    (∀ (x : Nibble) (nn : Byte) (s : State), decode (0x4#4 ++ x ++ nn) = .supported (.sneByte x nn) ∧
      ∃ t, exec (.sneByte x nn) s = .next t ∧ t.pc = (if s.getV x = nn then s.pc else s.pc + 2) ∧
        ChangesOnly [.pc] s t)

/-- SE Vx, Vy (5XY0) adds 2 to pc when V[X] = V[Y]; SNE Vx, Vy (9XY0) does so when they differ. A low nibble other
than 0 is unsupported in both groups. Each answers a next state always; no other component changes. -/
def Obligations.SkipsComparingRegisters : Prop :=
  (∀ (x y n : Nibble), n ≠ 0 →
      (∀ i, decode (0x5#4 ++ x ++ y ++ n) ≠ .supported i) ∧ ∀ i, decode (0x9#4 ++ x ++ y ++ n) ≠ .supported i) ∧
    (∀ (x y : Nibble) (s : State), decode (0x5#4 ++ x ++ y ++ 0x0#4) = .supported (.seReg x y) ∧
      ∃ t, exec (.seReg x y) s = .next t ∧ t.pc = (if s.getV x = s.getV y then s.pc + 2 else s.pc) ∧
        ChangesOnly [.pc] s t) ∧
    (∀ (x y : Nibble) (s : State), decode (0x9#4 ++ x ++ y ++ 0x0#4) = .supported (.sneReg x y) ∧
      ∃ t, exec (.sneReg x y) s = .next t ∧ t.pc = (if s.getV x = s.getV y then s.pc else s.pc + 2) ∧
        ChangesOnly [.pc] s t)

/-- JP V0, addr (BNNN) leaves pc = NNN + V[0]; under q_jump_vx it adds V[X] with X the top nibble of NNN (the
alternatives are the spec's decision D4). The sum is not reduced to 12 bits and is at most 0x10FE. It answers a next
state always; no other component changes (R178). -/
def Obligations.JumpWithOffsetAddsTheSelectedRegister : Prop :=
  ∀ (nnn : Addr) (x : Nibble) (s : State), x.toNat = nnn.toNat / 256 →
    decode (0xB#4 ++ nnn) = .supported (.jpV0 nnn) ∧
    ∃ t, exec (.jpV0 nnn) s = .next t ∧ t.pc.toNat ≤ 0x10FE ∧
      t.pc.toNat = nnn.toNat + (if s.cfg.qJumpVx then s.getV x else s.getV 0).toNat ∧ ChangesOnly [.pc] s t

/-- For every list of call targets that fits the call stack, the cycles of those CALLs followed by as many RETs all
complete; afterwards pc is the value it had when the first CALL executed (the address after that CALL), sp and every
entry below it are as before, and only pc and entries of the call stack have changed (R179). -/
def Obligations.CallReturnSymmetry : Prop :=
  ∀ (targets : List Addr) (s : State), s.sp.val + targets.length ≤ 16 →
    ∃ t, cyclesOf (targets.map .call ++ List.replicate targets.length .ret) s = .next t ∧
      (targets ≠ [] → t.pc = s.pc + 2) ∧ (∀ k : Fin 16, k.val < s.sp.val → t.stack[k] = s.stack[k]) ∧
      ChangesOnly [.pc, .stack] s t

/-- LD I, addr (ANNN) leaves I = NNN, so I is a valid address right after. It answers a next state always; no other
component changes. -/
def Obligations.LoadIndexIsZeroExtended : Prop :=
  ∀ (nnn : Addr) (s : State), decode (0xA#4 ++ nnn) = .supported (.ldI nnn) ∧
    ∃ t, exec (.ldI nnn) s = .next t ∧ t.i.toNat = nnn.toNat ∧ t.i.toNat ≤ 4095 ∧ ChangesOnly [.i] s t

/-- ADD I, Vx (FX1E): I = (I + V[X]) mod 65536, no flag (the spec's decision D20). LD F, Vx (FX29): I = FONT_BASE +
5 times the low nibble of V[X] (its decisions D9, D12), below 0x200 for every FONT_BASE the constraint allows;
FONT_BASE is an open parameter, log entry 1. Each answers a next state always; only I changes (R191, R192). -/
def Obligations.AddIndexAndGlyphAddress : Prop :=
  (∀ (x : Nibble) (s : State), decode (0xF#4 ++ x ++ 0x1E#8) = .supported (.addI x) ∧
      ∃ t, exec (.addI x) s = .next t ∧ t.i.toNat = (s.i.toNat + (s.getV x).toNat) % 65536 ∧ ChangesOnly [.i] s t) ∧
    (∀ (x : Nibble) (s : State), decode (0xF#4 ++ x ++ 0x29#8) = .supported (.ldF x) ∧
      ∃ t, exec (.ldF x) s = .next t ∧ t.i.toNat = fontBase + 5 * ((s.getV x).toNat % 16) ∧ t.i.toNat < 0x200 ∧
        ChangesOnly [.i] s t)

/-- LD B, Vx (FX33) with I + 2 at most 4095: the three bytes from the effective address on are the hundreds, tens
and units digit of V[X]; every other byte, I and every other component are unchanged (R193). Otherwise es becomes
Halted(OutOfBounds) and nothing else changes, the spec's decision D6 (R281, R288) and log entry 9 (DESIGN CHOICE).
-/
def Obligations.BcdStoresThreeDigits : Prop :=
  ∀ (x : Nibble) (s : State), decode (0xF#4 ++ x ++ 0x33#8) = .supported (.ldB x) ∧
    (effAddr s + 2 ≤ 4095 → ∃ t, exec (.ldB x) s = .next t ∧
      (t.mem.read (effAddr s)).toNat = (s.getV x).toNat / 100 ∧
      (t.mem.read (effAddr s + 1)).toNat = (s.getV x).toNat / 10 % 10 ∧
      (t.mem.read (effAddr s + 2)).toNat = (s.getV x).toNat % 10 ∧
      MemSameBut (effAddr s) 3 s t ∧ ChangesOnly [.mem] s t) ∧
    (4095 < effAddr s + 2 → ∃ t, exec (.ldB x) s = .next t ∧ RaisedTo .outOfBounds s t) ∧ effAddr s = s.i.toNat

/-- LD [I], Vx (FX55) with I + X at most 4095: byte k from the effective address on is V[k] for k up to X; every
other byte is unchanged; I is unchanged, or (I + X + 1) mod 65536 under q_index_increment; nothing else changes
(R194). Otherwise es becomes Halted(OutOfBounds) and nothing else changes, under every configuration, the spec's
decision D6 (R281, R288) and log entry 9 (DESIGN CHOICE). -/
def Obligations.BlockStoreWritesAscending : Prop :=
  ∀ (x : Nibble) (s : State), decode (0xF#4 ++ x ++ 0x55#8) = .supported (.storeRegs x) ∧
    (effAddr s + x.toNat ≤ 4095 → ∃ t, exec (.storeRegs x) s = .next t ∧
      (∀ k : Nibble, k ≤ x → t.mem.read (effAddr s + k.toNat) = s.getV k) ∧
      MemSameBut (effAddr s) (x.toNat + 1) s t ∧
      t.i.toNat = (if s.cfg.qIndexIncrement then (s.i.toNat + x.toNat + 1) % 65536 else s.i.toNat) ∧
      ChangesOnly [.mem, .i] s t) ∧
    (4095 < effAddr s + x.toNat → ∃ t, exec (.storeRegs x) s = .next t ∧ RaisedTo .outOfBounds s t) ∧
    effAddr s = s.i.toNat

/-- LD Vx, [I] (FX65) with I + X at most 4095: V[k] is the byte at I + k for k up to X (V[15] too when X = 15),
registers above V[X] are unchanged; I as for the block store; nothing else changes (R195). Otherwise es becomes
Halted(OutOfBounds) and nothing else changes, the spec's decision D6 (R281, R288) and log entry 9 (DESIGN CHOICE).
-/
def Obligations.BlockLoadReadsAscending : Prop :=
  ∀ (x : Nibble) (s : State), decode (0xF#4 ++ x ++ 0x65#8) = .supported (.loadRegs x) ∧
    (s.i.toNat + x.toNat ≤ 4095 → ∃ t, exec (.loadRegs x) s = .next t ∧
      (∀ k : Nibble, t.getV k = if k ≤ x then s.mem.read (s.i.toNat + k.toNat) else s.getV k) ∧
      t.i.toNat = (if s.cfg.qIndexIncrement then (s.i.toNat + x.toNat + 1) % 65536 else s.i.toNat) ∧
      ChangesOnly [.v, .i] s t) ∧
    (4095 < s.i.toNat + x.toNat → ∃ t, exec (.loadRegs x) s = .next t ∧ RaisedTo .outOfBounds s t)

/-- Store V[0] to V[X] at an address where it fits, then change the registers in any way and set I back: the block
load gives V[0] to V[X] their stored values and leaves the registers above as they stand (R194, R195). -/
def Obligations.BlockLoadUndoesBlockStore : Prop :=
  ∀ (x : Nibble) (s t : State) (regs : Vector Byte 16), s.i.toNat + x.toNat ≤ 4095 →
    exec (.storeRegs x) s = .next t →
    ∃ u, exec (.loadRegs x) { t with v := regs, i := s.i } = .next u ∧
      ∀ k : Nibble, u.getV k = if k ≤ x then s.getV k else State.getV { t with v := regs } k

/-- For every memory, every valid address and every byte: after the write the address reads the byte, and every
other address reads what it read before; so the byte is returned until the next write to that address (R67). -/
def Obligations.ReadAfterWrite : Prop :=
  ∀ (m : Memory) (a b : Nat) (v : Byte), a ≤ 4095 →
    (m.write a v).read a = v ∧ (b ≠ a → (m.write a v).read b = m.read b)

/-- In every state whose pc allows a fetch, after the word of any instruction is stored at pc and the engine made to
run, the next step is exec of that instruction on that state with pc advanced by two: a store is seen by the next
fetch (R74, R336). The storing itself, State.withFetchWord, and what it changes are the model's, log entry 6 (DESIGN
CHOICE); the fetch at an odd pc is log entry 8 (DESIGN CHOICE), the spec's decision D7. -/
def Obligations.StoredInstructionIsFetchedNext : Prop :=
  ∀ (i : Instr) (s : State), s.pc.toNat ≤ 4094 →
    step (s.withFetchWord 16 (encode i).toNat) =
      exec i { s.withFetchWord 16 (encode i).toNat with pc := s.pc + 2 } ∧
    ChangesOnly [.mem, .es] s (s.withFetchWord 16 (encode i).toNat) ∧
    MemSameBut s.pc.toNat 2 s (s.withFetchWord 16 (encode i).toNat)

/-- DRW (DXYN) when N = 0 or I + N - 1 is at most 4095: every pixel the sprite covers (columns wrapping always, rows
wrapping or dropped by q_clip_rows) is inverted and every other is unchanged; VF is 1 if some pixel went from set to
unset, else 0, written also when N = 0; other registers, I, memory and everything else are unchanged. Otherwise es
becomes Halted(OutOfBounds) and nothing else changes. Bit order, coordinate operands, N = 0 and the range check of
all rows are the spec's decision D21 (R210); the state after the error is its decision D6 (R281, R288) and log entry
9 (DESIGN CHOICE). -/
def Obligations.DrawTogglesExactlyTheCoveredPixels : Prop :=
  ∀ (x y n : Nibble) (s : State), decode (0xD#4 ++ x ++ y ++ n) = .supported (.drw x y n) ∧
    ((n = 0 ∨ s.i.toNat + n.toNat - 1 ≤ 4095) → ∃ t, exec (.drw x y n) s = .next t ∧
      (∀ py px, (SpriteCovers s x y n py px → t.disp.pixel py px = !s.disp.pixel py px) ∧
        (¬ SpriteCovers s x y n py px → t.disp.pixel py px = s.disp.pixel py px)) ∧
      ((∃ py px, s.disp.pixel py px = true ∧ t.disp.pixel py px = false) → t.getV 15 = 1) ∧
      ((¬ ∃ py px, s.disp.pixel py px = true ∧ t.disp.pixel py px = false) → t.getV 15 = 0) ∧
      RegsSameBut [15] s t ∧ ChangesOnly [.disp, .v] s t) ∧
    (n ≠ 0 ∧ 4095 < s.i.toNat + n.toNat - 1 → ∃ t, exec (.drw x y n) s = .next t ∧ RaisedTo .outOfBounds s t)

/-- When the sprite's bytes exist and neither coordinate register is VF (which the first draw writes), the two draws
complete and the display is as it was. From an empty display the first draw leaves VF = 0, and the second leaves VF
= 1 if the sprite drew at least one pixel, else 0 (JCHIP's draw-collision property, S5; R210). -/
def Obligations.DrawingTwiceErases : Prop :=
  ∀ (x y n : Nibble) (s : State), x ≠ 15 → y ≠ 15 → (n = 0 ∨ s.i.toNat + n.toNat - 1 ≤ 4095) →
    ∃ t u, exec (.drw x y n) s = .next t ∧ exec (.drw x y n) t = .next u ∧ u.disp = s.disp ∧
      (s.disp = Display.blank → t.getV 15 = 0 ∧
        u.getV 15 = if t.disp = Display.blank then 0 else 1)

/-- LD Vx, DT (FX07) leaves DT in V[X]; LD DT, Vx (FX15) leaves V[X] in DT; LD ST, Vx (FX18) leaves V[X] in ST, and
the sound gate is then open exactly when that value is not 0. Each answers a next state always and changes nothing
else. -/
def Obligations.TimerInstructionsCopy : Prop :=
  (∀ (x : Nibble) (s : State), decode (0xF#4 ++ x ++ 0x07#8) = .supported (.ldVxDt x) ∧
      ∃ t, exec (.ldVxDt x) s = .next t ∧ t.getV x = s.dt ∧ RegsSameBut [x] s t ∧ ChangesOnly [.v] s t) ∧
    (∀ (x : Nibble) (s : State), decode (0xF#4 ++ x ++ 0x15#8) = .supported (.ldDtVx x) ∧
      ∃ t, exec (.ldDtVx x) s = .next t ∧ t.dt = s.getV x ∧ ChangesOnly [.dt] s t) ∧
    (∀ (x : Nibble) (s : State), decode (0xF#4 ++ x ++ 0x18#8) = .supported (.ldStVx x) ∧
      ∃ t, exec (.ldStVx x) s = .next t ∧ t.st = s.getV x ∧ (t.soundTimerActive = true ↔ s.getV x ≠ 0) ∧
        ChangesOnly [.st] s t)

/-- SKP (EX9E) adds 2 to pc when the key named by the low four bits of V[X] is down, SKNP (EXA1) when it is up (that
the high bits are ignored is the spec's decision D11). Each answers a next state always; the latch and everything
else are unchanged (R230, R231, R233). -/
def Obligations.KeySkipsTestTheSelectedKey : Prop :=
  ∀ (x key : Nibble) (s : State), key.toNat = (s.getV x).toNat % 16 →
    (decode (0xE#4 ++ x ++ 0x9E#8) = .supported (.skp x) ∧
      ∃ t, exec (.skp x) s = .next t ∧ t.pc = (if s.isPressed key then s.pc + 2 else s.pc) ∧ ChangesOnly [.pc] s t) ∧
    (decode (0xE#4 ++ x ++ 0xA1#8) = .supported (.sknp x) ∧
      ∃ t, exec (.sknp x) s = .next t ∧ t.pc = (if s.isPressed key then s.pc else s.pc + 2) ∧ ChangesOnly [.pc] s t)

/-- LD Vx, K (FX0A) answers a next state always and changes es alone, to WaitingForKey(X). In that state a step
changes nothing, a tick changes the timers alone and a release of key k puts that key up in the latch and changes
nothing else, so each leaves es as it is; a press of key k leaves k in V[X], es Running, the key down, and
everything else, the other registers, the other keys and pc among it, unchanged. What ends a wait exactly is the
spec's decision D13 (R232, R255). -/
def Obligations.KeyWaitRunsToItsRelease : Prop :=
  (∀ (x : Nibble) (s : State), decode (0xF#4 ++ x ++ 0x0A#8) = .supported (.ldVxK x) ∧
      ∃ t, exec (.ldVxK x) s = .next t ∧ t.es = .waitingForKey x ∧ ChangesOnly [.es] s t) ∧
    (∀ (x k : Nibble) (s : State), s.es = .waitingForKey x →
      step s = .next s ∧ s.tickTimers.es = .waitingForKey x ∧ (s.deliverKeyEvent k false).es = .waitingForKey x ∧
      (s.deliverKeyEvent k true).es = .running ∧ ((s.deliverKeyEvent k true).getV x).toNat = k.toNat ∧
      RegsSameBut [x] s (s.deliverKeyEvent k true) ∧
      (∀ j, (s.deliverKeyEvent k true).isPressed j = if j = k then true else s.isPressed j) ∧
      ChangesOnly [.v, .keys, .es] s (s.deliverKeyEvent k true) ∧
      (∀ j, (s.deliverKeyEvent k false).isPressed j = if j = k then false else s.isPressed j) ∧
      ChangesOnly [.keys] s (s.deliverKeyEvent k false) ∧ ChangesOnly [.dt, .st] s s.tickTimers)

/-- CLS (00E0) answers a next state always: every pixel is false afterwards, VF and every other component are
unchanged. -/
def Obligations.ClearEmptiesTheDisplay : Prop :=
  ∀ s : State, decode 0x00E0 = .supported .cls ∧
    ∃ t, exec .cls s = .next t ∧ (∀ y x, t.disp.pixel y x = false) ∧ ChangesOnly [.disp] s t

/-- STOP (00FD, the spec's decision D2) answers a next state always: es is Halted(Stopped), a clean end, and every
other component is unchanged; the next step changes nothing (R241). -/
def Obligations.StopHaltsCleanly : Prop :=
  ∀ s : State, decode 0x00FD = .supported .stop ∧
    ∃ t, exec .stop s = .next t ∧ t.cleanEnd ∧ step t = .next t ∧ ChangesOnly [.es] s t

/-- A running engine that fetches a word outside the opcode table: under strict, es becomes
Halted(UnsupportedInstruction) with pc advanced; otherwise pc is advanced, the report grows by the pair of its
address and the word (the form of the report is the spec's decision D22 and log entry 11, DESIGN CHOICE), and
nothing else changes (R242, R297). The state after the error is its decision D6 and log entry 9 (DESIGN CHOICE). -/
def Obligations.UnsupportedOpcodeIsFatalOrReported : Prop :=
  ∀ s : State, s.es = .running → s.pc.toNat ≤ 4094 → supportedWord s.fetchWord = false →
    (s.cfg.strict = true → ∃ t, step s = .next t ∧ RaisedTo .unsupportedInstruction { s with pc := s.pc + 2 } t) ∧
    (s.cfg.strict = false → ∃ t, step s = .next t ∧ t.pc = s.pc + 2 ∧
      t.report = s.report ++ [{ address := s.pc, opcode := s.fetchWord }] ∧ ChangesOnly [.pc, .report] s t)

/-- From every running state and for every error kind: the step answers a state Halted with that kind if and only if
the condition of the table of causes holds (the fetch, DRW, LD B, the block transfers, CALL, RET, an unsupported
opcode under strict), and at most one kind's condition holds. So no other instruction can raise anything (R282,
R286). That the raise is a next state is log entry 3 (DEDUCED). -/
def Obligations.CycleRaisesExactlyByTheTable : Prop :=
  ∀ (s : State) (k : ErrorKind), s.es = .running →
    ((∃ t, step s = .next t ∧ t.es = .halted (.error k)) ↔ CycleRaises s k) ∧
    ∀ k', CycleRaises s k → CycleRaises s k' → k = k'

/-- From every running state: if the step ends Halted with an error kind then its state is the old one with that es,
pc advanced by two exactly when the fetch was in range, and nothing else changed: errors are precise. The state
after an error is the spec's decision D6 (R281, R288) and log entry 9 (DESIGN CHOICE). -/
def Obligations.RaisingCycleWritesNothingElse : Prop :=
  ∀ (s t : State) (k : ErrorKind), s.es = .running → step s = .next t → t.es = .halted (.error k) →
    t = { s with es := .halted (.error k), pc := if s.pc.toNat ≤ 4094 then s.pc + 2 else s.pc }

/-- In a halted state every host operation other than load that has a move leaves es as it is, a step changes
nothing at all, and no second error arises; a load of an image that fits starts a new session with a running engine
and every component at its reset value but memory (the image) and cfg (R289). That a halted step returns no error is
the spec's decision D17, that load resets in this state its decision D23, and the reset values its decision D8; the
model's own draw counter is not reset, log entry 2 (DESIGN CHOICE). -/
def Obligations.HaltedIsLeftOnlyByLoad : Prop :=
  ∀ (s : State) (r : HaltReason), s.es = .halted r →
    step s = .next s ∧
    (∀ op t resp, (∀ image, op ≠ .load image) → s.apply op = some (t, resp) → t.es = .halted r ∧ ∀ k, resp ≠ .error k) ∧
    ∀ image : List Byte, image.length ≤ 3584 →
      (s.load image).es = .running ∧ ChangesOnly [.mem, .cfg, .draws] State.reset (s.load image)

/-- For every state and host operation that has a move, the engine state afterwards is the table's: a cycle enters
WaitingForKey(X) by LD Vx, K, Halted(Stopped) by STOP, Halted(K) by raising K, else stays Running; a key press ends
a wait with the key in V[x]; shutdown halts; load restarts or fails; nothing else changes it. -/
def Obligations.EngineStateTransitions : Prop :=
  State.reset.es = .running ∧ ∀ (s t : State) (op : HostOp) (resp : Response), s.apply op = some (t, resp) →
    EngineStateAfter s op t.es ∧
    ∀ x k, s.es = .waitingForKey x → op = .deliverKeyEvent k true → (t.getV x).toNat = k.toNat

/-- For every instruction and state: a component the instruction is not listed as writing reads the same afterwards.
So keys, cfg and report are written by no instruction, the display by CLS and DRW only, memory by LD B and LD [I]
only, the call stack by CALL only, sp by CALL and RET only, each timer by its one set instruction (R20, R66, R76).
-/
def Obligations.InstructionsWriteOnlyTheirParts : Prop :=
  ∀ (i : Instr) (s t : State) (p : Part), exec i s = .next t → mayWrite i p = false → p.Same s t

/-- If memory is in canonical form (every listed address at most 4095, addresses strictly rising, no cell equal to
the reset content of its address) and step answers a next state, memory is in canonical form there: no cell outside
0 to 4095 ever comes to exist (R60, R61). The form itself is the model's choice, log entry 5. -/
def Obligations.StepKeepsMemoryCanonical : Prop :=
  ∀ s t : State, s.MemCanonical → step s = .next t → t.MemCanonical

/-- If pc is at most 0x10FE and every entry of the call stack at most 4096, the same holds after a step: the largest
value any rule can write to pc is 0x10FE, and a pushed return address is a fetched address plus 2 (R24). So the
additions modulo 65536 on pc never wrap. -/
def Obligations.StepKeepsPcBounded : Prop :=
  ∀ s t : State, s.PcBounded → step s = .next t → t.PcBounded

/-- If pc and the return addresses below sp are even and the fetched instruction, when it is a jump, call or
computed jump, has an even target (the software rule), they are even after the step. That the engine does not
enforce evenness is the spec's decision D7 (R334) and log entry 8 (DESIGN CHOICE). -/
def Obligations.StepKeepsPcEvenUnderTheSoftwareRule : Prop :=
  ∀ s t : State, s.PcEven → EvenTarget s (decode s.fetchWord) → step s = .next t → t.PcEven

/-- The reset state meets the three invariants that steps keep, and its engine is Running (R39, R330). The canonical
form of memory is the model's choice, log entry 5 (DESIGN CHOICE), and that State.reset is the state after loading
an empty image on a machine never configured is log entry 6 (DESIGN CHOICE). -/
def Obligations.ResetMeetsTheInvariants : Prop :=
  State.reset.MemCanonical ∧ State.reset.PcBounded ∧ State.reset.PcEven ∧ State.reset.es = .running

/-- After reset: pc = 0x200 and es Running (both printed by the source); every byte is zero but the 80 font bytes at
FONT_BASE, which lie below 0x200 (the spec's decision D9; their values are open parameters, log entry 1); every
register, I, sp, stack entry and timer is 0, every pixel and key false (its decision D8), the report empty (D22)
(R39, R330). The quirks are false and strict is true, which no reset sets: they are the defaults of R35 and R36, its
decisions D4 and D5, on a machine never configured, for which State.reset stands, log entry 6 (DESIGN CHOICE). -/
def Obligations.ResetState : Prop :=
  State.reset.pc = 0x200 ∧ State.reset.es = .running ∧
    (∀ a, State.reset.mem.read a =
      if fontBase ≤ a ∧ a < fontBase + 80 then fontByte (a - fontBase) else 0) ∧ fontBase + 80 ≤ 0x200 ∧
    (∀ k, State.reset.getV k = 0) ∧ State.reset.i = 0 ∧ State.reset.sp = 0 ∧
    (∀ k : Fin 16, State.reset.stack[k] = 0) ∧ State.reset.dt = 0 ∧ State.reset.st = 0 ∧
    (∀ y x, State.reset.disp.pixel y x = false) ∧ (∀ k, State.reset.isPressed k = false) ∧
    State.reset.report = [] ∧
    State.reset.cfg = ⟨false, false, false, false, false, true⟩

/-- Take any state and change its call-stack entries at or above sp in any way: the step answers the same state
again but for entries at or above its sp. So the content of those entries is never observable (R26). The two steps
compared draw the same byte: an RND in both draws by the same counter, log entry 2 (DESIGN CHOICE), so the statement
is for the same drawn byte. -/
def Obligations.StaleStackEntriesAreUnobservable : Prop :=
  ∀ (s t : State) (stack' : Vector StackEntry 16),
    (∀ k : Fin 16, k.val < s.sp.val → stack'[k] = s.stack[k]) → step s = .next t →
    ∃ stack'' : Vector StackEntry 16, step { s with stack := stack' } = .next { t with stack := stack'' } ∧
      ∀ k : Fin 16, k.val < t.sp.val → stack''[k] = t.stack[k]

/-- Change ST and the report of any state in any way: the step answers the same state but for ST and the report. So
no instruction reads them (R28, R37, R223). The two steps compared draw the same byte: an RND in both draws by the
same counter, log entry 2 (DESIGN CHOICE), so the statement is for the same drawn byte. -/
def Obligations.SoundTimerAndReportAreNeverRead : Prop :=
  ∀ (s t : State) (b : Byte) (r : List Report), step s = .next t →
    ∃ b' r', step { s with st := b, report := r } = .next { t with st := b', report := r' }

/-- After n tick_timers operations DT and ST are their old values less n, or 0 where n is larger, whatever the
engine state (that ticks apply in Halted is the spec's decision D15); no other component changes: ticks never drive
a timer below zero (R253). -/
def Obligations.TicksCountDownToZero : Prop :=
  ∀ (s : State) (n : Nat),
    (State.tickTimers^[n] s).dt.toNat = s.dt.toNat - n ∧ (State.tickTimers^[n] s).st.toNat = s.st.toNat - n ∧
      ChangesOnly [.dt, .st] s (State.tickTimers^[n] s)

/-- After deliver_key_event(k, p) key k is down exactly when p, every other key is as before, and unless a press
meets a waiting engine nothing else changes (that this holds in Halted too is the spec's decision D14; R254). -/
def Obligations.KeyEventsUpdateTheLatch : Prop :=
  ∀ (s : State) (k j : Nibble) (p : Bool),
    (s.deliverKeyEvent k p).isPressed j = (if j = k then p else s.isPressed j) ∧
    (p = false ∨ (∀ x, s.es ≠ .waitingForKey x) → ChangesOnly [.keys] s (s.deliverKeyEvent k p))

/-- load of an image of at most 3584 bytes: success; byte k of the image is at 0x200 + k, every other byte has its
reset content, and every other component its reset value, but cfg, which survives (and the model's own draw counter,
log entry 2, DESIGN CHOICE). A longer image: the error LoadError, es Halted(LoadError), memory and the rest as at
reset. That a load resets in every engine state is the spec's decision D23, and the reset values it does not print
its decision D8 (R251, R298, R330). -/
def Obligations.LoadResetsAndCopiesTheImage : Prop :=
  ∀ (s : State) (image : List Byte),
    ChangesOnly [.mem, .es, .cfg, .draws] State.reset (s.load image) ∧ (s.load image).cfg = s.cfg ∧
    (image.length ≤ 3584 → s.apply (.load image) = some (s.load image, .success) ∧ (s.load image).es = .running ∧
      (∀ (k : Nat) (h : k < image.length), (s.load image).mem.read (0x200 + k) = image[k]) ∧
      MemSameBut 0x200 image.length State.reset (s.load image)) ∧
    (3584 < image.length → s.apply (.load image) = some (s.load image, .error .loadError) ∧
      (s.load image).es = .halted (.error .loadError) ∧ Part.mem.Same State.reset (s.load image))

/-- A created instance takes configure (replacing its configuration) and load (of any image, starting the session
with that configuration), and no other operation (the spec's decision D23, marked in R331, and log entry 6, DESIGN
CHOICE); a session has no move for configure (the spec's decision D24), and every other operation leaves cfg as it
is. Shutdown changes es alone, to Halted(HostShutdown), and nothing in an engine already halted (its decision D18;
R250, R258, R331). -/
def Obligations.ConfigurationIsImmutableInASession : Prop :=
  (∀ cfg cfg', Instance.apply (.created cfg) (.configure cfg') = some (.created cfg', .nothing)) ∧
    (∀ cfg op, (∀ c, op ≠ .configure c) → (∀ image, op ≠ .load image) → Instance.apply (.created cfg) op = none) ∧
    (∀ cfg image, ∃ t r, Instance.apply (.created cfg) (.load image) = some (.session t, r) ∧ t.cfg = cfg) ∧
    (∀ (s : State) cfg, s.apply (.configure cfg) = none) ∧
    (∀ (s t : State) op r, s.apply op = some (t, r) → t.cfg = s.cfg) ∧
    (∀ s : State, ChangesOnly [.es] s s.shutdown ∧
      s.shutdown.es = match s.es with | .halted r => .halted r | _ => .halted .hostShutdown)

/-- display_snapshot returns the display, sound_timer_active whether ST is not 0 (the spec's decision D16),
is_pressed the latch of its key, any_pressed no key when none is down and else the lowest-numbered one that is (its
decision D27); each leaves the state as it is (R256, R257, R259). -/
def Obligations.QueriesReadWithoutChanging : Prop :=
  ∀ s : State,
    s.apply .displaySnapshot = some (s, .grid s.disp) ∧
    s.apply .soundTimerActive = some (s, .bool (decide (s.st ≠ 0))) ∧
    (∀ k, s.apply (.isPressed k) = some (s, .bool (s.isPressed k))) ∧
    ∃ q, s.apply .anyPressed = some (s, .key q) ∧
      (q = none ↔ ∀ k, s.isPressed k = false) ∧
      ∀ k, q = some k ↔ s.isPressed k = true ∧ ∀ j : Nibble, j.toNat < k.toNat → s.isPressed j = false

/-- For every state whose step does not execute LD Vx, DT, LD DT, Vx or LD ST, Vx: stepping then ticking and ticking
then stepping answer the same state. So two schedules can differ through the timers only at those instructions
(R261). The two steps compared draw the same byte: an RND in both draws by the same counter, log entry 2 (DESIGN
CHOICE), so the statement is for the same drawn byte. -/
def Obligations.TicksCommuteWithOtherCycles : Prop :=
  ∀ s t : State, step s = .next t →
    (s.es = .running → ∀ x, decode s.fetchWord ≠ .supported (.ldVxDt x) ∧
      decode s.fetchWord ≠ .supported (.ldDtVx x) ∧ decode s.fetchWord ≠ .supported (.ldStVx x)) →
    step s.tickTimers = .next t.tickTimers

/-- load on a created instance starts its session, for every configuration and every image; cfg is as configured.
With at most 3584 bytes: success, es Running, pc = 0x200, byte k of the image at 0x200 + k, every other byte its
reset content, every other component its reset value. A longer image: the error LoadError, es Halted(LoadError), and
memory and the rest at reset (R251, R298, R331). That a load resets first and that a failed one writes no byte is
the spec's decision D23, the reset values it does not print its decision D8; that the reset state is State.reset is
log entry 6 (DESIGN CHOICE), and the model's own draw counter starts at 0 by log entry 2 (DESIGN CHOICE). -/
def Obligations.FirstLoadStartsTheSession : Prop :=
  ∀ (cfg : QuirkConfig) (image : List Byte), ∃ t r,
    Instance.apply (.created cfg) (.load image) = some (.session t, r) ∧ t.cfg = cfg ∧ t.pc = 0x200 ∧
    ChangesOnly [.mem, .es, .cfg] State.reset t ∧
    (image.length ≤ 3584 → r = .success ∧ t.es = .running ∧
      (∀ (k : Nat) (h : k < image.length), t.mem.read (0x200 + k) = image[k]) ∧
      MemSameBut 0x200 image.length State.reset t) ∧
    (3584 < image.length → r = .error .loadError ∧ t.es = .halted (.error .loadError) ∧ Part.mem.Same State.reset t)
end

