-- ==== Sys2Proof/Laws/Decode.lean ====
section
/-!
SUPPORT. Fields and encoded words as numbers (spec/30_encoding.md R91, R92): each field of a word is a quotient and a
remainder of it, each format a sum of its fields, so that every fact about fields is linear arithmetic. Then the
fields of an encoded word, a word put together from its fields, and bytes against words (R63).
-/

namespace Sys2Proof

/-! ### Words as numbers -/

theorem toNat_append_eq {m n : Nat} (a : BitVec m) (b : BitVec n) : (a ++ b).toNat = 2 ^ n * a.toNat + b.toNat := by
  rw [BitVec.toNat_append, Nat.shiftLeft_eq, Nat.mul_comm, ← Nat.two_pow_add_eq_or_of_lt b.isLt]

theorem toNat_fieldC (op : Opcode) : (fieldC op).toNat = op.toNat / 4096 % 16 := by
  simp [fieldC, Nat.shiftRight_eq_div_pow]

theorem toNat_fieldX (op : Opcode) : (fieldX op).toNat = op.toNat / 256 % 16 := by
  simp [fieldX, Nat.shiftRight_eq_div_pow]

theorem toNat_fieldY (op : Opcode) : (fieldY op).toNat = op.toNat / 16 % 16 := by
  simp [fieldY, Nat.shiftRight_eq_div_pow]

theorem toNat_fieldN (op : Opcode) : (fieldN op).toNat = op.toNat % 16 := by
  simp [fieldN]

theorem toNat_fieldNN (op : Opcode) : (fieldNN op).toNat = op.toNat % 256 := by
  simp [fieldNN]

theorem toNat_fieldNNN (op : Opcode) : (fieldNNN op).toNat = op.toNat % 4096 := by
  simp [fieldNNN]

theorem toNat_encodeNNN (c : Nibble) (a : Addr) : (encodeNNN c a).toNat = 4096 * c.toNat + a.toNat :=
  toNat_append_eq c a

theorem toNat_encodeXNN (c x : Nibble) (nn : Byte) :
    (encodeXNN c x nn).toNat = 4096 * c.toNat + 256 * x.toNat + nn.toNat := by
  have h : (encodeXNN c x nn).toNat = 2 ^ 8 * (c ++ x).toNat + nn.toNat := toNat_append_eq (c ++ x) nn
  rw [h, toNat_append_eq]; omega

theorem toNat_encodeXYN (c x y n : Nibble) :
    (encodeXYN c x y n).toNat = 4096 * c.toNat + 256 * x.toNat + 16 * y.toNat + n.toNat := by
  have h : (encodeXYN c x y n).toNat = 2 ^ 4 * (c ++ x ++ y).toNat + n.toNat := toNat_append_eq (c ++ x ++ y) n
  have h' : (c ++ x ++ y).toNat = 2 ^ 4 * (c ++ x).toNat + y.toNat := toNat_append_eq (c ++ x) y
  rw [h, h', toNat_append_eq]; omega

/-! ### The fields of an encoded word -/

@[simp] theorem fieldC_encodeNNN (c : Nibble) (a : Addr) : fieldC (encodeNNN c a) = c := by
  apply BitVec.eq_of_toNat_eq; rw [toNat_fieldC, toNat_encodeNNN]; omega

@[simp] theorem fieldNNN_encodeNNN (c : Nibble) (a : Addr) : fieldNNN (encodeNNN c a) = a := by
  apply BitVec.eq_of_toNat_eq; rw [toNat_fieldNNN, toNat_encodeNNN]; omega

@[simp] theorem fieldC_encodeXNN (c x : Nibble) (nn : Byte) : fieldC (encodeXNN c x nn) = c := by
  apply BitVec.eq_of_toNat_eq; rw [toNat_fieldC, toNat_encodeXNN]; omega

@[simp] theorem fieldX_encodeXNN (c x : Nibble) (nn : Byte) : fieldX (encodeXNN c x nn) = x := by
  apply BitVec.eq_of_toNat_eq; rw [toNat_fieldX, toNat_encodeXNN]; omega

@[simp] theorem fieldNN_encodeXNN (c x : Nibble) (nn : Byte) : fieldNN (encodeXNN c x nn) = nn := by
  apply BitVec.eq_of_toNat_eq; rw [toNat_fieldNN, toNat_encodeXNN]; omega

@[simp] theorem fieldC_encodeXYN (c x y n : Nibble) : fieldC (encodeXYN c x y n) = c := by
  apply BitVec.eq_of_toNat_eq; rw [toNat_fieldC, toNat_encodeXYN]; omega

@[simp] theorem fieldX_encodeXYN (c x y n : Nibble) : fieldX (encodeXYN c x y n) = x := by
  apply BitVec.eq_of_toNat_eq; rw [toNat_fieldX, toNat_encodeXYN]; omega

@[simp] theorem fieldY_encodeXYN (c x y n : Nibble) : fieldY (encodeXYN c x y n) = y := by
  apply BitVec.eq_of_toNat_eq; rw [toNat_fieldY, toNat_encodeXYN]; omega

@[simp] theorem fieldN_encodeXYN (c x y n : Nibble) : fieldN (encodeXYN c x y n) = n := by
  apply BitVec.eq_of_toNat_eq; rw [toNat_fieldN, toNat_encodeXYN]; omega

/-! ### A word put together from its fields -/

theorem encodeNNN_fields (op : Opcode) : encodeNNN (fieldC op) (fieldNNN op) = op := by
  apply BitVec.eq_of_toNat_eq; rw [toNat_encodeNNN, toNat_fieldC, toNat_fieldNNN]; omega

theorem encodeXNN_fields (op : Opcode) : encodeXNN (fieldC op) (fieldX op) (fieldNN op) = op := by
  apply BitVec.eq_of_toNat_eq; rw [toNat_encodeXNN, toNat_fieldC, toNat_fieldX, toNat_fieldNN]; omega

theorem encodeXYN_fields (op : Opcode) : encodeXYN (fieldC op) (fieldX op) (fieldY op) (fieldN op) = op := by
  apply BitVec.eq_of_toNat_eq
  rw [toNat_encodeXYN, toNat_fieldC, toNat_fieldX, toNat_fieldY, toNat_fieldN]; omega

/-! ### Bytes (R63) -/

theorem toNat_combine (hi lo : Byte) : (combine hi lo).toNat = 256 * hi.toNat + lo.toNat := toNat_append_eq hi lo

/-- Splitting a word into its bytes and combining them gives the word back. -/
@[simp] theorem combine_highByte_lowByte (w : Opcode) : combine (highByte w) (lowByte w) = w := by
  apply BitVec.eq_of_toNat_eq
  rw [toNat_combine]
  simp [highByte, lowByte, Nat.shiftRight_eq_div_pow]
  omega

/-! ### Words under a mask (R92) -/

theorem and_ones (c : Nibble) : c &&& 0xF#4 = c := BitVec.and_allOnes

theorem mask_encodeNNN (c : Nibble) (a : Addr) : encodeNNN c a &&& 0xF000 = encodeNNN c 0 := by
  have h : encodeNNN c a &&& encodeNNN 0xF 0 = (c &&& 0xF#4) ++ (a &&& 0#12) := BitVec.and_append
  rw [and_ones, BitVec.and_zero] at h
  exact h

theorem mask_category_encodeXNN (c x : Nibble) (nn : Byte) : encodeXNN c x nn &&& 0xF000 = encodeXNN c 0 0 := by
  have h : encodeXNN c x nn &&& encodeXNN 0xF 0 0 = ((c ++ x) &&& (0xF#4 ++ 0#4)) ++ (nn &&& 0#8) := BitVec.and_append
  rw [BitVec.and_append, and_ones, BitVec.and_zero, BitVec.and_zero] at h
  exact h

theorem mask_selector_encodeXNN (c x : Nibble) (nn : Byte) : encodeXNN c x nn &&& 0xF0FF = encodeXNN c 0 nn := by
  have h : encodeXNN c x nn &&& encodeXNN 0xF 0 0xFF = ((c ++ x) &&& (0xF#4 ++ 0#4)) ++ (nn &&& BitVec.allOnes 8) :=
    BitVec.and_append
  rw [BitVec.and_append, and_ones, BitVec.and_zero, BitVec.and_allOnes] at h
  exact h

theorem mask_selector_encodeXYN (c x y n : Nibble) : encodeXYN c x y n &&& 0xF00F = encodeXYN c 0 0 n := by
  have h : encodeXYN c x y n &&& encodeXYN 0xF 0 0 0xF =
      ((c ++ x ++ y) &&& (0xF#4 ++ 0#4 ++ 0#4)) ++ (n &&& 0xF#4) := BitVec.and_append
  rw [BitVec.and_append, BitVec.and_append, and_ones, and_ones, BitVec.and_zero, BitVec.and_zero] at h
  exact h

theorem mask_category_encodeXYN (c x y n : Nibble) : encodeXYN c x y n &&& 0xF000 = encodeXYN c 0 0 0 := by
  have h : encodeXYN c x y n &&& encodeXYN 0xF 0 0 0 =
      ((c ++ x ++ y) &&& (0xF#4 ++ 0#4 ++ 0#4)) ++ (n &&& 0#4) := BitVec.and_append
  rw [BitVec.and_append, BitVec.and_append, and_ones, BitVec.and_zero, BitVec.and_zero, BitVec.and_zero] at h
  exact h

end Sys2Proof
end

