-- ==== Sys2Proof/Laws/Memory.lean ====
section
/-!
SUPPORT. The laws of memory: a read after a write, the canonical form, and the multi-byte operations. They hold of
every list of cells; only the canonical form asks for a canonical list.
-/

namespace Sys2Proof.Machine

theorem resetByte_program (a : Nat) (h : Config.loadOffset ≤ a) : resetByte a = 0 := by
  simp only [resetByte, if_pos h]

@[simp] theorem Memory.read_nil (a : Nat) : Memory.read [] a = resetByte a := rfl

theorem Memory.read_consCell (a b : Nat) (v : Byte) (t : Memory) (h : ∀ w, (a, w) ∉ t) :
    (Memory.consCell a v t).read b = if b = a then v else t.read b := by
  have miss : ∀ t : Memory, (∀ w, (a, w) ∉ t) → t.read a = resetByte a := by
    intro t ht
    induction t with
    | nil => rfl
    | cons c t ih =>
      obtain ⟨c, w⟩ := c
      have hc : c ≠ a := fun e => ht w (by simp [e])
      simp only [Memory.read, if_neg hc]
      exact ih fun w' h' => ht w' (List.mem_cons_of_mem _ h')
  unfold Memory.consCell
  split
  · next hv =>
    split
    · next hb => rw [hb, miss t h, hv]
    · rfl
  · simp only [Memory.read, eq_comm (a := a)]

theorem Memory.read_filter_ne (a b : Nat) (m : Memory) (h : b ≠ a) :
    Memory.read (m.filter fun c => c.1 != a) b = m.read b := by
  induction m with
  | nil => rfl
  | cons c t ih =>
    obtain ⟨c, w⟩ := c
    by_cases hc : c = a
    · have hb : c ≠ b := fun e => h (e ▸ hc)
      rw [List.filter_cons_of_neg (by simp [hc]), ih]
      simp [Memory.read, hb]
    · rw [List.filter_cons_of_pos (by simp [hc])]
      simp only [Memory.read, ih]

theorem Memory.read_put (m : Memory) (a b : Nat) (v : Byte) :
    (m.put a v).read b = if b = a then v else m.read b := by
  induction m with
  | nil => exact read_consCell a b v [] (by simp)
  | cons c t ih =>
    obtain ⟨c, w⟩ := c
    unfold Memory.put
    split
    · next hc =>
      simp only [Memory.read, ih]
      split
      · next hb => rw [if_neg (by omega)]
      · rfl
    · rw [read_consCell _ _ _ _ (by simp)]
      split
      · rfl
      · next hb => exact read_filter_ne a b _ hb

/-- A read after a write (R67). -/
theorem Memory.read_write (m : Memory) (a b : Nat) (v : Byte) (h : a < Config.memSize) :
    (m.write a v).read b = if b = a then v else m.read b := by
  simp only [Memory.write, if_pos h, read_put]

/-- What a multi-byte store does to every byte of memory (R64). -/
theorem Memory.read_writeBytes (m : Memory) (a b : Nat) (bytes : List Byte)
    (h : a + bytes.length ≤ Config.memSize) :
    (m.writeBytes a bytes).read b =
      if h : a ≤ b ∧ b < a + bytes.length then bytes[b - a]'(by omega) else m.read b := by
  induction bytes generalizing m a with
  | nil => rw [dif_neg (by simp)]; rfl
  | cons v rest ih =>
    simp only [List.length_cons] at h
    simp only [Memory.writeBytes]
    rw [ih _ (a + 1) (by omega), read_write _ _ _ _ (by omega)]
    by_cases hb : b = a
    · subst hb
      rw [dif_neg (by omega), if_pos rfl, dif_pos (by simp)]
      simp
    · by_cases hin : a + 1 ≤ b ∧ b < a + 1 + rest.length
      · rw [dif_pos hin, dif_pos (by simp; omega)]
        have : b - a = (b - (a + 1)) + 1 := by omega
        simp [this]
      · rw [dif_neg hin, if_neg hb, dif_neg (by simp; omega)]

@[simp] theorem Memory.length_readBytes (m : Memory) (a n : Nat) : (m.readBytes a n).length = n := by
  simp [Memory.readBytes]

theorem Memory.getElem_readBytes (m : Memory) (a n k : Nat) (h : k < n) :
    (m.readBytes a n)[k]'(by simpa using h) = m.read (a + k) := by
  simp [Memory.readBytes]

/-! ### The canonical form -/

/-- What `wf` says: valid addresses, nothing listed that reads so anyway, strictly rising. -/
theorem Memory.wf_iff (m : Memory) :
    m.wf = true ↔ (∀ c ∈ m, c.1 < Config.memSize ∧ c.2 ≠ resetByte c.1) ∧ m.Pairwise (fun c d => c.1 < d.1) := by
  induction m with
  | nil => simp [Memory.wf]
  | cons c t ih =>
    obtain ⟨a, v⟩ := c
    simp only [Memory.wf, Bool.and_eq_true, decide_eq_true_eq, List.all_eq_true, ih, List.mem_cons,
      forall_eq_or_imp, List.pairwise_cons]
    tauto

theorem Memory.wf_nil : Memory.wf [] = true := rfl

theorem Memory.mem_consCell {c : Host.Cell} {a : Nat} {v : Byte} {t : Memory}
    (h : c ∈ Memory.consCell a v t) : c = (a, v) ∧ v ≠ resetByte a ∨ c ∈ t := by
  unfold Memory.consCell at h
  split at h
  · exact .inr h
  · next hv =>
    rcases List.mem_cons.1 h with rfl | h
    · exact .inl ⟨rfl, hv⟩
    · exact .inr h

theorem Memory.mem_put {c : Host.Cell} {m : Memory} {a : Nat} {v : Byte} (h : c ∈ m.put a v) :
    c = (a, v) ∧ v ≠ resetByte a ∨ c ∈ m := by
  induction m with
  | nil => exact mem_consCell h
  | cons d t ih =>
    obtain ⟨b, w⟩ := d
    unfold Memory.put at h
    split at h
    · rcases List.mem_cons.1 h with rfl | h
      · exact .inr (by simp)
      · exact (ih h).imp_right (List.mem_cons_of_mem _)
    · exact (mem_consCell h).imp_right fun h => (List.mem_filter.1 h).1

theorem Memory.pairwise_put {m : Memory} (a : Nat) (v : Byte) (h : m.Pairwise (fun c d => c.1 < d.1)) :
    (m.put a v).Pairwise (fun c d => c.1 < d.1) := by
  induction m with
  | nil => unfold Memory.put Memory.consCell; split <;> simp
  | cons d t ih =>
    obtain ⟨b, w⟩ := d
    obtain ⟨hb, ht⟩ := List.pairwise_cons.1 h
    unfold Memory.put
    split
    · next hba =>
      refine List.pairwise_cons.2 ⟨fun c hc => ?_, ih ht⟩
      rcases mem_put hc with ⟨rfl, _⟩ | hc
      · exact hba
      · exact hb c hc
    · next hba =>
      have hf := h.filter (fun c : Host.Cell => c.1 != a)
      unfold Memory.consCell
      split
      · exact hf
      · refine List.pairwise_cons.2 ⟨fun c hc => ?_, hf⟩
        obtain ⟨hc, hne⟩ := List.mem_filter.1 hc
        have hne : c.1 ≠ a := by simpa using hne
        rcases List.mem_cons.1 hc with rfl | hc
        · simp at *; omega
        · have := hb c hc; simp at *; omega

/-- A write keeps the canonical form. -/
theorem Memory.wf_write {m : Memory} (a : Nat) (v : Byte) (h : m.wf = true) : (m.write a v).wf = true := by
  unfold Memory.write
  split
  · next ha =>
    rw [wf_iff] at h ⊢
    refine ⟨fun c hc => ?_, pairwise_put a v h.2⟩
    rcases mem_put hc with ⟨rfl, hv⟩ | hc
    · exact ⟨ha, hv⟩
    · exact h.1 c hc
  · exact h

/-- A multi-byte store keeps the canonical form. -/
theorem Memory.wf_writeBytes {m : Memory} (a : Nat) (bytes : List Byte) (h : m.wf = true) :
    (m.writeBytes a bytes).wf = true := by
  induction bytes generalizing m a with
  | nil => exact h
  | cons v rest ih => exact ih (a + 1) (wf_write a v h)

/-- Two canonical memories that read alike everywhere are the same list. -/
theorem Memory.ext_of_wf {m n : Memory} (hm : m.wf = true) (hn : n.wf = true) (h : ∀ a, m.read a = n.read a) :
    m = n := by
  have low : ∀ (t : Memory) (a : Nat), (∀ c ∈ t, a < c.1) → t.read a = resetByte a := by
    intro t a
    induction t with
    | nil => intro _; rfl
    | cons c t ih =>
      intro hc
      obtain ⟨b, w⟩ := c
      have : b ≠ a := by have := hc (b, w) (by simp); simp at this; omega
      simp only [Memory.read, if_neg this]
      exact ih fun c h => hc c (List.mem_cons_of_mem _ h)
  induction m generalizing n with
  | nil =>
    cases n with
    | nil => rfl
    | cons d n =>
      obtain ⟨b, w⟩ := d
      have := h b
      simp only [Memory.read, if_true] at this
      exact absurd this.symm ((wf_iff _).1 hn |>.1 (b, w) List.mem_cons_self).2
  | cons c m ih =>
    obtain ⟨a, v⟩ := c
    have hm' := (wf_iff _).1 hm
    obtain ⟨ha, hmt⟩ := List.pairwise_cons.1 hm'.2
    cases n with
    | nil =>
      have := h a
      simp only [Memory.read, if_true] at this
      exact absurd this (hm'.1 (a, v) List.mem_cons_self).2
    | cons d n =>
      obtain ⟨b, w⟩ := d
      have hn' := (wf_iff _).1 hn
      obtain ⟨hb, hnt⟩ := List.pairwise_cons.1 hn'.2
      have hab : a = b := by
        rcases Nat.lt_trichotomy a b with hlt | heq | hgt
        · have h1 := h a
          have h2 : Memory.read ((b, w) :: n) a = resetByte a := low _ _ fun c hc => by
            rcases List.mem_cons.1 hc with rfl | hc
            · exact hlt
            · exact Nat.lt_trans hlt (hb c hc)
          rw [h2] at h1
          simp only [Memory.read, if_true] at h1
          exact absurd h1 (hm'.1 (a, v) List.mem_cons_self).2
        · exact heq
        · have h1 := h b
          have h2 : Memory.read ((a, v) :: m) b = resetByte b := low _ _ fun c hc => by
            rcases List.mem_cons.1 hc with rfl | hc
            · exact hgt
            · exact Nat.lt_trans hgt (ha c hc)
          rw [h2] at h1
          simp only [Memory.read, if_true] at h1
          exact absurd h1.symm (hn'.1 (b, w) List.mem_cons_self).2
      subst hab
      have hvw : v = w := by simpa [Memory.read] using h a
      subst hvw
      congr 1
      refine ih ((wf_iff _).2 ⟨fun c hc => hm'.1 c (List.mem_cons_of_mem _ hc), hmt⟩)
        ((wf_iff _).2 ⟨fun c hc => hn'.1 c (List.mem_cons_of_mem _ hc), hnt⟩) fun x => ?_
      by_cases hx : a = x
      · subst hx; rw [low _ _ ha, low _ _ hb]
      · simpa [Memory.read, hx] using h x

end Sys2Proof.Machine
end

