-- ==== Sys2Proof/Laws/State.lean ====
section
/-!
SUPPORT. One lemma per field per update of the state, and what each named update does to a register read: no later
proof unfolds a record update.
-/

namespace Sys2Proof.Machine

/-! ### How the constants of R4 fit each other -/

/-- A sprite row is one memory byte. -/
theorem spriteW_eq : Config.spriteW = Config.vBits := rfl

/-- A sprite's height is at most `SPRITE_MAX_H` (R4). -/
theorem toNat_le_spriteMaxH (n : Nibble) : n.toNat ≤ Config.spriteMaxH := Nat.le_of_lt_succ n.isLt

/-! ### `setV` -/

@[simp] theorem State.setV_i (s : State) (x : Nibble) (b : Byte) : (s.setV x b).i = s.i := rfl
@[simp] theorem State.setV_pc (s : State) (x : Nibble) (b : Byte) : (s.setV x b).pc = s.pc := rfl
@[simp] theorem State.setV_sp (s : State) (x : Nibble) (b : Byte) : (s.setV x b).sp = s.sp := rfl
@[simp] theorem State.setV_stack (s : State) (x : Nibble) (b : Byte) : (s.setV x b).stack = s.stack := rfl
@[simp] theorem State.setV_dt (s : State) (x : Nibble) (b : Byte) : (s.setV x b).dt = s.dt := rfl
@[simp] theorem State.setV_st (s : State) (x : Nibble) (b : Byte) : (s.setV x b).st = s.st := rfl
@[simp] theorem State.setV_mem (s : State) (x : Nibble) (b : Byte) : (s.setV x b).mem = s.mem := rfl
@[simp] theorem State.setV_disp (s : State) (x : Nibble) (b : Byte) : (s.setV x b).disp = s.disp := rfl
@[simp] theorem State.setV_keys (s : State) (x : Nibble) (b : Byte) : (s.setV x b).keys = s.keys := rfl
@[simp] theorem State.setV_es (s : State) (x : Nibble) (b : Byte) : (s.setV x b).es = s.es := rfl
@[simp] theorem State.setV_cfg (s : State) (x : Nibble) (b : Byte) : (s.setV x b).cfg = s.cfg := rfl
@[simp] theorem State.setV_report (s : State) (x : Nibble) (b : Byte) : (s.setV x b).report = s.report := rfl
@[simp] theorem State.setV_draws (s : State) (x : Nibble) (b : Byte) : (s.setV x b).draws = s.draws := rfl

/-! ### `setVf` -/

@[simp] theorem State.setVf_i (s : State) (b : Byte) : (s.setVf b).i = s.i := rfl
@[simp] theorem State.setVf_pc (s : State) (b : Byte) : (s.setVf b).pc = s.pc := rfl
@[simp] theorem State.setVf_sp (s : State) (b : Byte) : (s.setVf b).sp = s.sp := rfl
@[simp] theorem State.setVf_stack (s : State) (b : Byte) : (s.setVf b).stack = s.stack := rfl
@[simp] theorem State.setVf_dt (s : State) (b : Byte) : (s.setVf b).dt = s.dt := rfl
@[simp] theorem State.setVf_st (s : State) (b : Byte) : (s.setVf b).st = s.st := rfl
@[simp] theorem State.setVf_mem (s : State) (b : Byte) : (s.setVf b).mem = s.mem := rfl
@[simp] theorem State.setVf_disp (s : State) (b : Byte) : (s.setVf b).disp = s.disp := rfl
@[simp] theorem State.setVf_keys (s : State) (b : Byte) : (s.setVf b).keys = s.keys := rfl
@[simp] theorem State.setVf_es (s : State) (b : Byte) : (s.setVf b).es = s.es := rfl
@[simp] theorem State.setVf_cfg (s : State) (b : Byte) : (s.setVf b).cfg = s.cfg := rfl
@[simp] theorem State.setVf_report (s : State) (b : Byte) : (s.setVf b).report = s.report := rfl
@[simp] theorem State.setVf_draws (s : State) (b : Byte) : (s.setVf b).draws = s.draws := rfl

/-! ### `raise` -/

@[simp] theorem State.raise_v (s : State) (k : ErrorKind) : (s.raise k).v = s.v := rfl
@[simp] theorem State.raise_i (s : State) (k : ErrorKind) : (s.raise k).i = s.i := rfl
@[simp] theorem State.raise_pc (s : State) (k : ErrorKind) : (s.raise k).pc = s.pc := rfl
@[simp] theorem State.raise_sp (s : State) (k : ErrorKind) : (s.raise k).sp = s.sp := rfl
@[simp] theorem State.raise_stack (s : State) (k : ErrorKind) : (s.raise k).stack = s.stack := rfl
@[simp] theorem State.raise_dt (s : State) (k : ErrorKind) : (s.raise k).dt = s.dt := rfl
@[simp] theorem State.raise_st (s : State) (k : ErrorKind) : (s.raise k).st = s.st := rfl
@[simp] theorem State.raise_mem (s : State) (k : ErrorKind) : (s.raise k).mem = s.mem := rfl
@[simp] theorem State.raise_disp (s : State) (k : ErrorKind) : (s.raise k).disp = s.disp := rfl
@[simp] theorem State.raise_keys (s : State) (k : ErrorKind) : (s.raise k).keys = s.keys := rfl
@[simp] theorem State.raise_es (s : State) (k : ErrorKind) : (s.raise k).es = .halted (.error k) := rfl
@[simp] theorem State.raise_cfg (s : State) (k : ErrorKind) : (s.raise k).cfg = s.cfg := rfl
@[simp] theorem State.raise_report (s : State) (k : ErrorKind) : (s.raise k).report = s.report := rfl
@[simp] theorem State.raise_draws (s : State) (k : ErrorKind) : (s.raise k).draws = s.draws := rfl

/-! ### `advance` -/

@[simp] theorem State.advance_v (s : State) : (s.advance).v = s.v := rfl
@[simp] theorem State.advance_i (s : State) : (s.advance).i = s.i := rfl
@[simp] theorem State.advance_pc (s : State) : (s.advance).pc = s.pc + 2 := rfl
@[simp] theorem State.advance_sp (s : State) : (s.advance).sp = s.sp := rfl
@[simp] theorem State.advance_stack (s : State) : (s.advance).stack = s.stack := rfl
@[simp] theorem State.advance_dt (s : State) : (s.advance).dt = s.dt := rfl
@[simp] theorem State.advance_st (s : State) : (s.advance).st = s.st := rfl
@[simp] theorem State.advance_mem (s : State) : (s.advance).mem = s.mem := rfl
@[simp] theorem State.advance_disp (s : State) : (s.advance).disp = s.disp := rfl
@[simp] theorem State.advance_keys (s : State) : (s.advance).keys = s.keys := rfl
@[simp] theorem State.advance_es (s : State) : (s.advance).es = s.es := rfl
@[simp] theorem State.advance_cfg (s : State) : (s.advance).cfg = s.cfg := rfl
@[simp] theorem State.advance_report (s : State) : (s.advance).report = s.report := rfl
@[simp] theorem State.advance_draws (s : State) : (s.advance).draws = s.draws := rfl

/-! ### `jump` -/

@[simp] theorem State.jump_v (s : State) (a : CodeAddr) : (s.jump a).v = s.v := rfl
@[simp] theorem State.jump_i (s : State) (a : CodeAddr) : (s.jump a).i = s.i := rfl
@[simp] theorem State.jump_pc (s : State) (a : CodeAddr) : (s.jump a).pc = a := rfl
@[simp] theorem State.jump_sp (s : State) (a : CodeAddr) : (s.jump a).sp = s.sp := rfl
@[simp] theorem State.jump_stack (s : State) (a : CodeAddr) : (s.jump a).stack = s.stack := rfl
@[simp] theorem State.jump_dt (s : State) (a : CodeAddr) : (s.jump a).dt = s.dt := rfl
@[simp] theorem State.jump_st (s : State) (a : CodeAddr) : (s.jump a).st = s.st := rfl
@[simp] theorem State.jump_mem (s : State) (a : CodeAddr) : (s.jump a).mem = s.mem := rfl
@[simp] theorem State.jump_disp (s : State) (a : CodeAddr) : (s.jump a).disp = s.disp := rfl
@[simp] theorem State.jump_keys (s : State) (a : CodeAddr) : (s.jump a).keys = s.keys := rfl
@[simp] theorem State.jump_es (s : State) (a : CodeAddr) : (s.jump a).es = s.es := rfl
@[simp] theorem State.jump_cfg (s : State) (a : CodeAddr) : (s.jump a).cfg = s.cfg := rfl
@[simp] theorem State.jump_report (s : State) (a : CodeAddr) : (s.jump a).report = s.report := rfl
@[simp] theorem State.jump_draws (s : State) (a : CodeAddr) : (s.jump a).draws = s.draws := rfl

/-! ### `addToI` -/

@[simp] theorem State.addToI_v (s : State) (n : Nat) : (s.addToI n).v = s.v := rfl
@[simp] theorem State.addToI_i (s : State) (n : Nat) : (s.addToI n).i = BitVec.ofNat 16 (s.i.toNat + n) := rfl
@[simp] theorem State.addToI_pc (s : State) (n : Nat) : (s.addToI n).pc = s.pc := rfl
@[simp] theorem State.addToI_sp (s : State) (n : Nat) : (s.addToI n).sp = s.sp := rfl
@[simp] theorem State.addToI_stack (s : State) (n : Nat) : (s.addToI n).stack = s.stack := rfl
@[simp] theorem State.addToI_dt (s : State) (n : Nat) : (s.addToI n).dt = s.dt := rfl
@[simp] theorem State.addToI_st (s : State) (n : Nat) : (s.addToI n).st = s.st := rfl
@[simp] theorem State.addToI_mem (s : State) (n : Nat) : (s.addToI n).mem = s.mem := rfl
@[simp] theorem State.addToI_disp (s : State) (n : Nat) : (s.addToI n).disp = s.disp := rfl
@[simp] theorem State.addToI_keys (s : State) (n : Nat) : (s.addToI n).keys = s.keys := rfl
@[simp] theorem State.addToI_es (s : State) (n : Nat) : (s.addToI n).es = s.es := rfl
@[simp] theorem State.addToI_cfg (s : State) (n : Nat) : (s.addToI n).cfg = s.cfg := rfl
@[simp] theorem State.addToI_report (s : State) (n : Nat) : (s.addToI n).report = s.report := rfl
@[simp] theorem State.addToI_draws (s : State) (n : Nat) : (s.addToI n).draws = s.draws := rfl

/-! ### `draw` -/

@[simp] theorem State.draw_v (s : State) : (s.draw.2).v = s.v := rfl
@[simp] theorem State.draw_i (s : State) : (s.draw.2).i = s.i := rfl
@[simp] theorem State.draw_pc (s : State) : (s.draw.2).pc = s.pc := rfl
@[simp] theorem State.draw_sp (s : State) : (s.draw.2).sp = s.sp := rfl
@[simp] theorem State.draw_stack (s : State) : (s.draw.2).stack = s.stack := rfl
@[simp] theorem State.draw_dt (s : State) : (s.draw.2).dt = s.dt := rfl
@[simp] theorem State.draw_st (s : State) : (s.draw.2).st = s.st := rfl
@[simp] theorem State.draw_mem (s : State) : (s.draw.2).mem = s.mem := rfl
@[simp] theorem State.draw_disp (s : State) : (s.draw.2).disp = s.disp := rfl
@[simp] theorem State.draw_keys (s : State) : (s.draw.2).keys = s.keys := rfl
@[simp] theorem State.draw_es (s : State) : (s.draw.2).es = s.es := rfl
@[simp] theorem State.draw_cfg (s : State) : (s.draw.2).cfg = s.cfg := rfl
@[simp] theorem State.draw_report (s : State) : (s.draw.2).report = s.report := rfl
@[simp] theorem State.draw_draws (s : State) : (s.draw.2).draws = s.draws + 1 := rfl

/-! ### `setKey` -/

@[simp] theorem State.setKey_v (s : State) (k : Nibble) (b : Bool) : (s.setKey k b).v = s.v := rfl
@[simp] theorem State.setKey_i (s : State) (k : Nibble) (b : Bool) : (s.setKey k b).i = s.i := rfl
@[simp] theorem State.setKey_pc (s : State) (k : Nibble) (b : Bool) : (s.setKey k b).pc = s.pc := rfl
@[simp] theorem State.setKey_sp (s : State) (k : Nibble) (b : Bool) : (s.setKey k b).sp = s.sp := rfl
@[simp] theorem State.setKey_stack (s : State) (k : Nibble) (b : Bool) : (s.setKey k b).stack = s.stack := rfl
@[simp] theorem State.setKey_dt (s : State) (k : Nibble) (b : Bool) : (s.setKey k b).dt = s.dt := rfl
@[simp] theorem State.setKey_st (s : State) (k : Nibble) (b : Bool) : (s.setKey k b).st = s.st := rfl
@[simp] theorem State.setKey_mem (s : State) (k : Nibble) (b : Bool) : (s.setKey k b).mem = s.mem := rfl
@[simp] theorem State.setKey_disp (s : State) (k : Nibble) (b : Bool) : (s.setKey k b).disp = s.disp := rfl
@[simp] theorem State.setKey_es (s : State) (k : Nibble) (b : Bool) : (s.setKey k b).es = s.es := rfl
@[simp] theorem State.setKey_cfg (s : State) (k : Nibble) (b : Bool) : (s.setKey k b).cfg = s.cfg := rfl
@[simp] theorem State.setKey_report (s : State) (k : Nibble) (b : Bool) : (s.setKey k b).report = s.report := rfl
@[simp] theorem State.setKey_draws (s : State) (k : Nibble) (b : Bool) : (s.setKey k b).draws = s.draws := rfl

/-! ### `tickTimers` -/

@[simp] theorem State.tickTimers_v (s : State) : (s.tickTimers).v = s.v := rfl
@[simp] theorem State.tickTimers_i (s : State) : (s.tickTimers).i = s.i := rfl
@[simp] theorem State.tickTimers_pc (s : State) : (s.tickTimers).pc = s.pc := rfl
@[simp] theorem State.tickTimers_sp (s : State) : (s.tickTimers).sp = s.sp := rfl
@[simp] theorem State.tickTimers_stack (s : State) : (s.tickTimers).stack = s.stack := rfl
@[simp] theorem State.tickTimers_dt (s : State) : (s.tickTimers).dt = countDown s.dt := rfl
@[simp] theorem State.tickTimers_st (s : State) : (s.tickTimers).st = countDown s.st := rfl
@[simp] theorem State.tickTimers_mem (s : State) : (s.tickTimers).mem = s.mem := rfl
@[simp] theorem State.tickTimers_disp (s : State) : (s.tickTimers).disp = s.disp := rfl
@[simp] theorem State.tickTimers_keys (s : State) : (s.tickTimers).keys = s.keys := rfl
@[simp] theorem State.tickTimers_es (s : State) : (s.tickTimers).es = s.es := rfl
@[simp] theorem State.tickTimers_cfg (s : State) : (s.tickTimers).cfg = s.cfg := rfl
@[simp] theorem State.tickTimers_report (s : State) : (s.tickTimers).report = s.report := rfl
@[simp] theorem State.tickTimers_draws (s : State) : (s.tickTimers).draws = s.draws := rfl

/-! ### Updates that depend on a condition -/

@[simp] theorem State.skipIf_v (s : State) (c : Bool) : (s.skipIf c).v = s.v := by
  unfold State.skipIf; split <;> rfl
@[simp] theorem State.skipIf_i (s : State) (c : Bool) : (s.skipIf c).i = s.i := by
  unfold State.skipIf; split <;> rfl
@[simp] theorem State.skipIf_sp (s : State) (c : Bool) : (s.skipIf c).sp = s.sp := by
  unfold State.skipIf; split <;> rfl
@[simp] theorem State.skipIf_stack (s : State) (c : Bool) : (s.skipIf c).stack = s.stack := by
  unfold State.skipIf; split <;> rfl
@[simp] theorem State.skipIf_dt (s : State) (c : Bool) : (s.skipIf c).dt = s.dt := by
  unfold State.skipIf; split <;> rfl
@[simp] theorem State.skipIf_st (s : State) (c : Bool) : (s.skipIf c).st = s.st := by
  unfold State.skipIf; split <;> rfl
@[simp] theorem State.skipIf_mem (s : State) (c : Bool) : (s.skipIf c).mem = s.mem := by
  unfold State.skipIf; split <;> rfl
@[simp] theorem State.skipIf_disp (s : State) (c : Bool) : (s.skipIf c).disp = s.disp := by
  unfold State.skipIf; split <;> rfl
@[simp] theorem State.skipIf_keys (s : State) (c : Bool) : (s.skipIf c).keys = s.keys := by
  unfold State.skipIf; split <;> rfl
@[simp] theorem State.skipIf_es (s : State) (c : Bool) : (s.skipIf c).es = s.es := by
  unfold State.skipIf; split <;> rfl
@[simp] theorem State.skipIf_cfg (s : State) (c : Bool) : (s.skipIf c).cfg = s.cfg := by
  unfold State.skipIf; split <;> rfl
@[simp] theorem State.skipIf_report (s : State) (c : Bool) : (s.skipIf c).report = s.report := by
  unfold State.skipIf; split <;> rfl
@[simp] theorem State.skipIf_draws (s : State) (c : Bool) : (s.skipIf c).draws = s.draws := by
  unfold State.skipIf; split <;> rfl

@[simp] theorem State.bumpIndex_v (s : State) (x : Nibble) : (s.bumpIndex x).v = s.v := by
  unfold State.bumpIndex; split <;> rfl
@[simp] theorem State.bumpIndex_pc (s : State) (x : Nibble) : (s.bumpIndex x).pc = s.pc := by
  unfold State.bumpIndex; split <;> rfl
@[simp] theorem State.bumpIndex_sp (s : State) (x : Nibble) : (s.bumpIndex x).sp = s.sp := by
  unfold State.bumpIndex; split <;> rfl
@[simp] theorem State.bumpIndex_stack (s : State) (x : Nibble) : (s.bumpIndex x).stack = s.stack := by
  unfold State.bumpIndex; split <;> rfl
@[simp] theorem State.bumpIndex_dt (s : State) (x : Nibble) : (s.bumpIndex x).dt = s.dt := by
  unfold State.bumpIndex; split <;> rfl
@[simp] theorem State.bumpIndex_st (s : State) (x : Nibble) : (s.bumpIndex x).st = s.st := by
  unfold State.bumpIndex; split <;> rfl
@[simp] theorem State.bumpIndex_mem (s : State) (x : Nibble) : (s.bumpIndex x).mem = s.mem := by
  unfold State.bumpIndex; split <;> rfl
@[simp] theorem State.bumpIndex_disp (s : State) (x : Nibble) : (s.bumpIndex x).disp = s.disp := by
  unfold State.bumpIndex; split <;> rfl
@[simp] theorem State.bumpIndex_keys (s : State) (x : Nibble) : (s.bumpIndex x).keys = s.keys := by
  unfold State.bumpIndex; split <;> rfl
@[simp] theorem State.bumpIndex_es (s : State) (x : Nibble) : (s.bumpIndex x).es = s.es := by
  unfold State.bumpIndex; split <;> rfl
@[simp] theorem State.bumpIndex_cfg (s : State) (x : Nibble) : (s.bumpIndex x).cfg = s.cfg := by
  unfold State.bumpIndex; split <;> rfl
@[simp] theorem State.bumpIndex_report (s : State) (x : Nibble) : (s.bumpIndex x).report = s.report := by
  unfold State.bumpIndex; split <;> rfl
@[simp] theorem State.bumpIndex_draws (s : State) (x : Nibble) : (s.bumpIndex x).draws = s.draws := by
  unfold State.bumpIndex; split <;> rfl

@[simp] theorem State.writeResultAndFlag_i (s : State) (x : Nibble) (r : Byte) (f : Bool) : (s.writeResultAndFlag x r f).i = s.i := by
  unfold State.writeResultAndFlag; split <;> rfl
@[simp] theorem State.writeResultAndFlag_pc (s : State) (x : Nibble) (r : Byte) (f : Bool) : (s.writeResultAndFlag x r f).pc = s.pc := by
  unfold State.writeResultAndFlag; split <;> rfl
@[simp] theorem State.writeResultAndFlag_sp (s : State) (x : Nibble) (r : Byte) (f : Bool) : (s.writeResultAndFlag x r f).sp = s.sp := by
  unfold State.writeResultAndFlag; split <;> rfl
@[simp] theorem State.writeResultAndFlag_stack (s : State) (x : Nibble) (r : Byte) (f : Bool) : (s.writeResultAndFlag x r f).stack = s.stack := by
  unfold State.writeResultAndFlag; split <;> rfl
@[simp] theorem State.writeResultAndFlag_dt (s : State) (x : Nibble) (r : Byte) (f : Bool) : (s.writeResultAndFlag x r f).dt = s.dt := by
  unfold State.writeResultAndFlag; split <;> rfl
@[simp] theorem State.writeResultAndFlag_st (s : State) (x : Nibble) (r : Byte) (f : Bool) : (s.writeResultAndFlag x r f).st = s.st := by
  unfold State.writeResultAndFlag; split <;> rfl
@[simp] theorem State.writeResultAndFlag_mem (s : State) (x : Nibble) (r : Byte) (f : Bool) : (s.writeResultAndFlag x r f).mem = s.mem := by
  unfold State.writeResultAndFlag; split <;> rfl
@[simp] theorem State.writeResultAndFlag_disp (s : State) (x : Nibble) (r : Byte) (f : Bool) : (s.writeResultAndFlag x r f).disp = s.disp := by
  unfold State.writeResultAndFlag; split <;> rfl
@[simp] theorem State.writeResultAndFlag_keys (s : State) (x : Nibble) (r : Byte) (f : Bool) : (s.writeResultAndFlag x r f).keys = s.keys := by
  unfold State.writeResultAndFlag; split <;> rfl
@[simp] theorem State.writeResultAndFlag_es (s : State) (x : Nibble) (r : Byte) (f : Bool) : (s.writeResultAndFlag x r f).es = s.es := by
  unfold State.writeResultAndFlag; split <;> rfl
@[simp] theorem State.writeResultAndFlag_cfg (s : State) (x : Nibble) (r : Byte) (f : Bool) : (s.writeResultAndFlag x r f).cfg = s.cfg := by
  unfold State.writeResultAndFlag; split <;> rfl
@[simp] theorem State.writeResultAndFlag_report (s : State) (x : Nibble) (r : Byte) (f : Bool) : (s.writeResultAndFlag x r f).report = s.report := by
  unfold State.writeResultAndFlag; split <;> rfl
@[simp] theorem State.writeResultAndFlag_draws (s : State) (x : Nibble) (r : Byte) (f : Bool) : (s.writeResultAndFlag x r f).draws = s.draws := by
  unfold State.writeResultAndFlag; split <;> rfl

@[simp] theorem State.skipIf_pc (s : State) (c : Bool) : (s.skipIf c).pc = if c then s.pc + 2 else s.pc := by
  unfold State.skipIf; split <;> rfl

@[simp] theorem State.bumpIndex_i (s : State) (x : Nibble) :
    (s.bumpIndex x).i = if s.cfg.qIndexIncrement then BitVec.ofNat 16 (s.i.toNat + (x.toNat + 1)) else s.i := by
  unfold State.bumpIndex; split <;> rfl

/-! ### Register reads -/

@[simp] theorem State.getV_setV_same (s : State) (x : Nibble) (b : Byte) : (s.setV x b).getV x = b := by
  simp [State.getV, State.setV]

theorem State.getV_setV_ne (s : State) {x k : Nibble} (b : Byte) (h : k ≠ x) : (s.setV x b).getV k = s.getV k := by
  have : x.toNat ≠ k.toNat := fun e => h (BitVec.eq_of_toNat_eq e.symm)
  simp [State.getV, State.setV, Vector.getElem_set_ne, this]

theorem State.getV_setV (s : State) (x k : Nibble) (b : Byte) :
    (s.setV x b).getV k = if k = x then b else s.getV k := by
  split
  · next h => rw [h, getV_setV_same]
  · next h => exact getV_setV_ne s b h

/-- A register read depends on the register file alone. -/
theorem State.getV_congr {s t : State} (h : t.v = s.v) (k : Nibble) : t.getV k = s.getV k := by
  simp [State.getV, h]

/-- Two states whose registers all read alike have the same register file. -/
theorem State.v_ext {s t : State} (h : ∀ k : Nibble, t.getV k = s.getV k) : t.v = s.v := by
  apply Vector.ext
  intro k hk
  have := h (BitVec.ofNat 4 k)
  simpa [State.getV, Nat.mod_eq_of_lt hk] using this

@[simp] theorem State.vf_setVf (s : State) (b : Byte) : (s.setVf b).vf = b := getV_setV_same s _ b

theorem State.isPressed_setKey (s : State) (k j : Nibble) (b : Bool) :
    (s.setKey k b).isPressed j = if j = k then b else s.isPressed j := by
  split
  · next h => subst h; simp [State.isPressed, State.setKey]
  · next h =>
    have : k.toNat ≠ j.toNat := fun e => h (BitVec.eq_of_toNat_eq e.symm)
    simp [State.isPressed, State.setKey, Vector.getElem_set_ne, this]

end Sys2Proof.Machine
end

