-- ==== Sys2Proof/Laws/Ops.lean ====
section
/-!
SUPPORT. What each shared operation of Machine/Ops.lean can do, once: the check before the first write, the call stack,
the pixel toggle, the fetch.
-/

namespace Sys2Proof.Machine

/-! ### Range checks (R8, R61) -/

theorem inRange_iff (a n : Nat) : inRange a n = true ↔ n = 0 ∨ a + n ≤ 4096 := by simp [inRange, Config.memSize]

theorem inRange_eq_false (a n : Nat) : inRange a n = false ↔ 0 < n ∧ 4096 < a + n := by
  rw [← Bool.not_eq_true, inRange_iff]; omega

@[simp] theorem checked_true (k : ErrorKind) (s : State) (f : State → Answer) : checked true k s f = f s := rfl

@[simp] theorem checked_false (k : ErrorKind) (s : State) (f : State → Answer) :
    checked false k s f = .next (s.raise k) := rfl

/-- A checked operation that answers a next state either passed its check and is its body's answer, or raised. -/
theorem checked_next {ok : Bool} {k : ErrorKind} {s t : State} {f : State → Answer}
    (h : checked ok k s f = .next t) : ok = true ∧ f s = .next t ∨ ok = false ∧ t = s.raise k := by
  cases ok
  · exact .inr ⟨rfl, (Host.Outcome.next.inj h).symm⟩
  · exact .inl ⟨rfl, h⟩

/-! ### Call stack (R172, R173) -/

theorem State.sp_le (s : State) : s.sp.val ≤ 16 := Nat.le_of_lt_succ s.sp.isLt

/-- The 8-bit view of `sp` loses nothing (R4 `V_BITS`, R25). -/
theorem State.toNat_spByte (s : State) : s.spByte.toNat = s.sp.val := by
  have := s.sp_le
  simp [State.spByte]; omega

theorem State.push_eq_none (s : State) (a : StackEntry) : s.push a = none ↔ s.sp.val = 16 := by
  have := s.sp_le
  unfold State.push; split
  · next h => have h : s.sp.val < 16 := h; simp; omega
  · next h => have h : ¬ s.sp.val < 16 := h; simp; omega

/-- A push that succeeds: the call stack was not full, the entry at `sp` is written, `sp` counts one more. -/
theorem State.push_eq_some {s t : State} {a : StackEntry} (h : s.push a = some t) :
    ∃ hlt : s.sp.val < 16, t = { s with stack := s.stack.set s.sp.val a hlt, sp := ⟨s.sp.val + 1, Nat.succ_lt_succ hlt⟩ } := by
  unfold State.push at h; split at h
  · next hlt => exact ⟨hlt, (Option.some.inj h).symm⟩
  · cases h

theorem State.pop_eq_none (s : State) : s.pop = none ↔ s.sp.val = 0 := by
  unfold State.pop; split <;> simp_all

/-- A pop that succeeds: the call stack was not empty, the entry below `sp` is returned, `sp` counts one less. -/
theorem State.pop_eq_some {s t : State} {a : StackEntry} (h : s.pop = some (a, t)) :
    ∃ hp : 0 < s.sp.val, a = s.stack[s.sp.val - 1]'(by have := s.sp_le; show _ < 16; omega) ∧
      t = { s with sp := ⟨s.sp.val - 1, Nat.lt_of_le_of_lt (Nat.sub_le _ _) s.sp.isLt⟩ } := by
  unfold State.pop at h; split at h
  · cases h
  · next hp =>
    obtain ⟨rfl, rfl⟩ := Prod.mk.inj (Option.some.inj h)
    exact ⟨Nat.pos_of_ne_zero hp, rfl, rfl⟩

/-- A pop undoes a push. -/
theorem State.pop_push {s t : State} {a : StackEntry} (h : s.push a = some t) :
    t.pop = some (a, { t with sp := s.sp }) := by
  obtain ⟨hlt, rfl⟩ := push_eq_some h
  simp [State.pop]

/-! ### Display (R210) -/

theorem Display.pixel_toggle (d : Display) (y r : Fin 32) (x c : Fin 64) :
    (d.toggle y x).pixel r c = if r = y ∧ c = x then !d.pixel y x else d.pixel r c := by
  unfold Display.toggle Display.pixel
  by_cases hr : r = y
  · subst hr
    by_cases hc : c = x
    · subst hc; simp
    · have : x.val ≠ c.val := fun e => hc (Fin.ext e.symm)
      simp [hc, Vector.getElem_set_ne, this]
  · have : y.val ≠ r.val := fun e => hr (Fin.ext e.symm)
    simp [hr, Vector.getElem_set_ne, this]

@[simp] theorem Display.pixel_blank (y : Fin 32) (x : Fin 64) : Display.blank.pixel y x = false := by
  simp [Display.blank, Display.pixel]

/-- Two displays that agree pixel by pixel are the same. -/
theorem Display.ext_pixel {d e : Display} (h : ∀ y x, d.pixel y x = e.pixel y x) : d = e := by
  apply Vector.ext; intro y hy
  apply Vector.ext; intro x hx
  exact h ⟨y, hy⟩ ⟨x, hx⟩

/-! ### Fetch (R121) -/

theorem State.canFetch_iff (s : State) : s.canFetch = true ↔ s.pc.toNat ≤ 4094 := by simp [State.canFetch, Config.memSize]

/-- A word placed where the next fetch reads is the word fetched. -/
theorem State.fetchWord_placeWord (s : State) (op : Opcode) (h : s.pc.toNat ≤ 4094) : (s.placeWord op).fetchWord = op := by
  have hr := fun b => Memory.read_writeBytes s.mem s.pc.toNat b [highByte op, lowByte op]
    (by simp [Config.memSize]; omega)
  have h0 := hr s.pc.toNat
  have h1 := hr (s.pc.toNat + 1)
  rw [dif_pos (by simp)] at h0 h1
  simp only [State.fetchWord, State.placeWord, h0, h1]
  simp

end Sys2Proof.Machine
end

