-- ==== Sys2Proof/Laws/Draw.lean ====
section
/-!
SUPPORT. Everything `draw` does to the buffer (spec/44_draw.md R210, R211): the loops plot a list of points, no point
twice, so each covered pixel is toggled once and a collision is a covered pixel that was set.
-/

namespace Sys2Proof.Machine

/-- Plotting a list of points, in order. -/
def Canvas.plotAll (a : Canvas) (pts : List (Fin 32 × Fin 64)) : Canvas := pts.foldl (fun a p => a.plot p.1 p.2) a

/-- The points of one sprite row's columns. -/
def rowPoints (x0 : Nat) (y : Fin 32) (row : Byte) (cols : List Nat) : List (Fin 32 × Fin 64) :=
  (cols.filter fun c => row.getLsbD (7 - c)).map fun c => (y, spriteColumn x0 c)

/-- The points of sprite rows `r`, `r + 1`, …. -/
def spritePoints (clip : Bool) (x0 y0 r : Nat) : List Byte → List (Fin 32 × Fin 64)
  | [] => []
  | row :: rest =>
    (if clip && decide (Config.displayH ≤ y0 + r) then [] else rowPoints x0 (spriteRow y0 r) row (List.range 8)) ++
      spritePoints clip x0 y0 (r + 1) rest

theorem Canvas.drawBits_eq (a : Canvas) (x0 : Nat) (y : Fin 32) (row : Byte) (cols : List Nat) :
    a.drawBits x0 y row cols = a.plotAll (rowPoints x0 y row cols) := by
  induction cols generalizing a with
  | nil => rfl
  | cons c rest ih =>
    unfold Canvas.drawBits
    rw [ih]
    by_cases h : row.getLsbD (7 - c) = true
    · simp [rowPoints, Canvas.plotAll, h]
    · simp [rowPoints, Canvas.plotAll, h]

theorem Canvas.drawRows_eq (a : Canvas) (clip : Bool) (x0 y0 r : Nat) (rows : List Byte) :
    a.drawRows clip x0 y0 r rows = a.plotAll (spritePoints clip x0 y0 r rows) := by
  induction rows generalizing a r with
  | nil => rfl
  | cons row rest ih =>
    unfold Canvas.drawRows
    rw [ih]
    split
    · next h => simp only [spritePoints, h, if_true, List.nil_append]
    · next h =>
      rw [Canvas.drawRow, Canvas.drawBits_eq]
      simp only [spritePoints, h, Canvas.plotAll, List.foldl_append]
      rfl

/-- Plotting points of which none occurs twice: each is toggled, nothing else is, and the flag records a point that
was set. -/
theorem Canvas.plotAll_spec (a : Canvas) (pts : List (Fin 32 × Fin 64)) (h : pts.Nodup) :
    (∀ y x, (a.plotAll pts).disp.pixel y x = if (y, x) ∈ pts then !a.disp.pixel y x else a.disp.pixel y x) ∧
      ((a.plotAll pts).collided = true ↔ a.collided = true ∨ ∃ y x, (y, x) ∈ pts ∧ a.disp.pixel y x = true) := by
  induction pts generalizing a with
  | nil => simp [Canvas.plotAll]
  | cons p rest ih =>
    obtain ⟨py, px⟩ := p
    obtain ⟨hp, hrest⟩ := List.nodup_cons.1 h
    obtain ⟨ihp, ihc⟩ := ih (a.plot py px) hrest
    have hstep : a.plotAll ((py, px) :: rest) = (a.plot py px).plotAll rest := rfl
    have hpix : ∀ y x, (a.plot py px).disp.pixel y x =
        if y = py ∧ x = px then !a.disp.pixel py px else a.disp.pixel y x :=
      fun y x => Display.pixel_toggle a.disp py y px x
    refine ⟨fun y x => ?_, ?_⟩
    · rw [hstep, ihp, hpix]
      by_cases he : y = py ∧ x = px
      · obtain ⟨rfl, rfl⟩ := he
        simp [hp]
      · have : (y, x) ≠ (py, px) := by simpa using he
        simp [he, this]
    · rw [hstep, ihc]
      have hcol : (a.plot py px).collided = (a.collided || a.disp.pixel py px) := rfl
      rw [hcol, Bool.or_eq_true]
      constructor
      · rintro ((h | h) | ⟨y, x, hm, hs⟩)
        · exact .inl h
        · exact .inr ⟨py, px, List.mem_cons_self, h⟩
        · refine .inr ⟨y, x, List.mem_cons_of_mem _ hm, ?_⟩
          rw [hpix, if_neg] at hs
          · exact hs
          · rintro ⟨rfl, rfl⟩; exact hp hm
      · rintro (h | ⟨y, x, hm, hs⟩)
        · exact .inl (.inl h)
        · rcases List.mem_cons.1 hm with he | hm'
          · obtain ⟨rfl, rfl⟩ := Prod.mk.inj he
            exact .inl (.inr hs)
          · refine .inr ⟨y, x, hm', ?_⟩
            rw [hpix, if_neg]
            · exact hs
            · rintro ⟨rfl, rfl⟩; exact hp hm'

theorem mem_rowPoints {x0 : Nat} {y : Fin 32} {row : Byte} {cols : List Nat} {p : Fin 32 × Fin 64} :
    p ∈ rowPoints x0 y row cols ↔ ∃ c ∈ cols, row.getLsbD (7 - c) = true ∧ p = (y, spriteColumn x0 c) := by
  simp only [rowPoints, List.mem_map, List.mem_filter]
  constructor
  · rintro ⟨c, ⟨hc, hb⟩, rfl⟩; exact ⟨c, hc, hb, rfl⟩
  · rintro ⟨c, hc, hb, rfl⟩; exact ⟨c, ⟨hc, hb⟩, rfl⟩

/-- Which pixels a sprite covers. -/
theorem mem_spritePoints {clip : Bool} {x0 y0 r : Nat} {rows : List Byte} {p : Fin 32 × Fin 64} :
    p ∈ spritePoints clip x0 y0 r rows ↔
      ∃ (j : Nat) (hj : j < rows.length) (c : Nat), c < 8 ∧ rows[j].getLsbD (7 - c) = true ∧
        (clip = true → y0 + (r + j) < 32) ∧ p = (spriteRow y0 (r + j), spriteColumn x0 c) := by
  induction rows generalizing r with
  | nil => simp [spritePoints]
  | cons row rest ih =>
    unfold spritePoints
    rw [List.mem_append, ih]
    constructor
    · rintro (h | ⟨j, hj, c, hc, hb, hcl, rfl⟩)
      · split at h
        · simp at h
        · next hcl =>
          obtain ⟨c, hc, hb, rfl⟩ := mem_rowPoints.1 h
          refine ⟨0, by simp, c, List.mem_range.1 hc, by simpa using hb, fun h => ?_, by simp⟩
          simp [h, Config.displayH] at hcl
          omega
      · refine ⟨j + 1, by simpa using hj, c, hc, by simpa using hb, fun h => ?_, ?_⟩
        · have := hcl h; omega
        · rw [show r + 1 + j = r + (j + 1) by omega]
    · rintro ⟨j, hj, c, hc, hb, hcl, rfl⟩
      cases j with
      | zero =>
        left
        rw [if_neg]
        · exact mem_rowPoints.2 ⟨c, List.mem_range.2 hc, by simpa using hb, by simp⟩
        · simp [Config.displayH]
          intro h
          have := hcl h
          omega
      | succ j =>
        right
        refine ⟨j, by simpa using hj, c, hc, by simpa using hb, fun h => ?_, ?_⟩
        · have := hcl h; omega
        · rw [show r + (j + 1) = r + 1 + j by omega]

theorem nodup_rowPoints (x0 : Nat) (y : Fin 32) (row : Byte) : (rowPoints x0 y row (List.range 8)).Nodup := by
  unfold rowPoints
  refine List.Nodup.map_on ?_ (List.nodup_range.filter _)
  intro c hc d hd h
  have hc := List.mem_range.1 (List.mem_filter.1 hc).1
  have hd := List.mem_range.1 (List.mem_filter.1 hd).1
  have h : (x0 + c) % 64 = (x0 + d) % 64 := by simpa [spriteColumn, Fin.ext_iff] using h
  omega

/-- At most 32 rows: no pixel is plotted twice. -/
theorem nodup_spritePoints (clip : Bool) (x0 y0 r : Nat) (rows : List Byte) (h : rows.length ≤ 32) :
    (spritePoints clip x0 y0 r rows).Nodup := by
  induction rows generalizing r with
  | nil => exact List.nodup_nil
  | cons row rest ih =>
    simp only [List.length_cons] at h
    unfold spritePoints
    refine List.Nodup.append ?_ (ih (r + 1) (by omega)) ?_
    · split
      · exact List.nodup_nil
      · exact nodup_rowPoints x0 _ row
    · intro p hp hq
      split at hp
      · cases hp
      · obtain ⟨c, _, _, rfl⟩ := mem_rowPoints.1 hp
        obtain ⟨j, hj, d, _, _, _, he⟩ := mem_spritePoints.1 hq
        have he : (y0 + r) % 32 = (y0 + (r + 1 + j)) % 32 := by
          simpa [spriteRow, Fin.ext_iff] using congrArg Prod.fst he
        omega

/-- Everything `draw` does, for a sprite of at most 32 rows. -/
theorem Display.draw_spec (d : Display) (clip : Bool) (x y : Nat) (rows : List Byte) (h : rows.length ≤ 32) :
    (∀ r c, (d.draw clip x y rows).disp.pixel r c =
        if (r, c) ∈ spritePoints clip (x % 64) (y % 32) 0 rows then !d.pixel r c else d.pixel r c) ∧
      ((d.draw clip x y rows).collided = true ↔
        ∃ r c, (r, c) ∈ spritePoints clip (x % 64) (y % 32) 0 rows ∧ d.pixel r c = true) := by
  unfold Display.draw
  rw [Canvas.drawRows_eq]
  have := Canvas.plotAll_spec ⟨d, false⟩ _ (nodup_spritePoints clip (x % 64) (y % 32) 0 rows h)
  simpa using this

end Sys2Proof.Machine
end

