-- ==== Sys2Proof/Laws/Index.lean ====
section
/-!
SUPPORT. The block transfers' register sides (spec/43_memory_index.md R194, R195) and the operand values.
-/

namespace Sys2Proof.Machine

@[simp] theorem State.length_regsUpTo (s : State) (x : Nibble) : (s.regsUpTo x).length = x.toNat + 1 := by
  have := x.isLt
  simp [State.regsUpTo]; omega

theorem State.getElem_regsUpTo (s : State) (x : Nibble) (k : Nat) (h : k < x.toNat + 1) :
    (s.regsUpTo x)[k]'(by simpa using h) = s.getV (BitVec.ofNat 4 k) := by
  have := x.isLt
  simp [State.regsUpTo, State.getV, Nat.mod_eq_of_lt (show k < 16 by omega)]

/-- Consecutive registers loaded from a list of bytes: what every register holds afterwards. -/
theorem State.getV_loadV (s : State) (j : Nat) (bytes : List Byte) (k : Nibble) (h : j + bytes.length ≤ 16) :
    (s.loadV j bytes).getV k =
      if h : j ≤ k.toNat ∧ k.toNat < j + bytes.length then bytes[k.toNat - j]'(by omega) else s.getV k := by
  induction bytes generalizing s j with
  | nil => rw [dif_neg (by simp)]; rfl
  | cons b rest ih =>
    simp only [List.length_cons] at h
    unfold State.loadV
    rw [ih _ (j + 1) (by omega), State.getV_setV]
    have hj : (BitVec.ofNat 4 j).toNat = j := by simp; omega
    by_cases hk : k = BitVec.ofNat 4 j
    · have hk' : k.toNat = j := by rw [hk, hj]
      rw [dif_neg (by omega), if_pos hk, dif_pos ⟨by omega, by simp; omega⟩]
      simp [hk']
    · have hk' : k.toNat ≠ j := fun e => hk (BitVec.eq_of_toNat_eq (by rw [hj, e]))
      by_cases hin : j + 1 ≤ k.toNat ∧ k.toNat < j + 1 + rest.length
      · rw [dif_pos hin, dif_pos ⟨by omega, by simp; omega⟩]
        have : k.toNat - j = (k.toNat - (j + 1)) + 1 := by omega
        simp [this]
      · rw [dif_neg hin, if_neg hk, dif_neg (by simp; omega)]

/-- A block load writes registers and nothing else. -/
theorem State.loadV_eq (s : State) (j : Nat) (bytes : List Byte) :
    s.loadV j bytes = { s with v := (s.loadV j bytes).v } := by
  induction bytes generalizing s j with
  | nil => rfl
  | cons b rest ih =>
    unfold State.loadV
    rw [ih]
    rfl

theorem toNat_addrOperand (nnn : Addr) : (addrOperand nnn : CodeAddr).toNat = nnn.toNat := by
  have := nnn.isLt
  simp [addrOperand]; omega

theorem toNat_byteOperand (b : Byte) : (byteOperand b).toNat = b.toNat := by
  have := b.isLt
  simp [byteOperand]; omega

theorem toNat_keyOperand (s : State) (x : Nibble) : (keyOperand s x).toNat = (s.getV x).toNat % 16 := by
  simp [keyOperand]

theorem fontBase_le : fontBase + 80 ≤ 512 := by
  have : Config.fontBase.val < 433 := Config.fontBase.isLt
  unfold fontBase; omega

theorem toNat_glyphAddr (b : Byte) : (glyphAddr b).toNat = fontBase + 5 * (b.toNat % 16) := by
  have := fontBase_le
  simp [glyphAddr, Config.glyphH]; omega

end Sys2Proof.Machine
end

