-- ==== Sys2Proof/Laws/Exec.lean ====
section
/-!
SUPPORT. Once for all instructions: what the execute stage can leave. A proof about a step takes `exec_effect` apart
and never unfolds a meaning.
-/

namespace Sys2Proof.Machine

/-- The state an instruction leaves when it does not raise, with the computed values left open where a frame or an
invariant does not need them. -/
def Effect (i : Instr) (s t : State) : Prop :=
  match i with
  | .cls => t = { s with disp := Display.blank }
  | .ret =>
    ∃ (_ : 0 < s.sp.val) (h : s.sp.val - 1 < 16),
      t = { s with sp := ⟨s.sp.val - 1, Nat.lt_succ_of_lt h⟩, pc := s.stack[s.sp.val - 1] }
  | .stop => t = { s with es := .halted .stopped }
  | .jp nnn => t = s.jump (addrOperand nnn)
  | .call nnn =>
    ∃ h : s.sp.val < 16,
      t = { s with
        stack := s.stack.set s.sp.val s.pc h, sp := ⟨s.sp.val + 1, Nat.succ_lt_succ h⟩, pc := addrOperand nnn }
  | .seByte _ _ | .sneByte _ _ | .seReg _ _ | .sneReg _ _ | .skp _ | .sknp _ => ∃ c, t = s.skipIf c
  | .jpV0 nnn => t = s.jump (addrOperand nnn + byteOperand (jumpOffset s nnn))
  | .ldByte x _ | .addByte x _ | .ldReg x _ | .orReg x _ | .andReg x _ | .xorReg x _ | .ldVxDt x => ∃ b, t = s.setV x b
  | .addReg x _ | .subReg x _ | .shr x _ | .subnReg x _ | .shl x _ => ∃ b f, t = s.writeResultAndFlag x b f
  | .ldI nnn => t = { s with i := addrOperand nnn }
  | .rnd x nn => t = State.setV { s with draws := s.draws + 1 } x (Config.rnd s.draws &&& nn)
  | .drw _ _ _ => ∃ d f, t = State.setVf { s with disp := d } (flagByte f)
  | .ldVxK x => t = { s with es := .waitingForKey x }
  | .ldDtVx x => t = { s with dt := s.getV x }
  | .ldStVx x => t = { s with st := s.getV x }
  | .addI _ | .ldF _ => ∃ w, t = { s with i := w }
  | .ldB _ => ∃ bytes, t = { s with mem := s.mem.writeBytes (effAddr s) bytes }
  | .storeRegs _ => ∃ bytes w, t = { s with mem := s.mem.writeBytes (effAddr s) bytes, i := w }
  | .loadRegs x => ∃ vs w, t = { s with v := vs, i := w } ∧ ∀ k, ¬ k ≤ x → t.getV k = s.getV k

/-- The post-modification of a block transfer touches `I` alone. -/
theorem State.bumpIndex_eq (s : State) (x : Nibble) : ∃ w, s.bumpIndex x = { s with i := w } := by
  unfold State.bumpIndex; split
  · exact ⟨_, rfl⟩
  · exact ⟨s.i, rfl⟩

/-- A skip touches `pc` alone. -/
theorem State.skipIf_eq (s : State) (c : Bool) : ∃ w, s.skipIf c = { s with pc := w } := by
  unfold State.skipIf; split <;> exact ⟨_, rfl⟩

/-- Writing a result and a flag touches the registers alone. -/
theorem State.writeResultAndFlag_eq (s : State) (x : Nibble) (r : Byte) (f : Bool) :
    ∃ vs, s.writeResultAndFlag x r f = { s with v := vs } := by
  unfold State.writeResultAndFlag; split <;> exact ⟨_, rfl⟩

/-- When `exec` answers a next state it is a raise, or the instruction's effect. -/
theorem exec_effect {i : Instr} {s t : State} (h : exec i s = .next t) : (∃ k, t = s.raise k) ∨ Effect i s t := by
  cases i
  case call nnn =>
    simp only [exec, execCall] at h
    split at h
    · next hu => obtain ⟨hp, rfl⟩ := State.push_eq_some hu; cases h; exact .inr ⟨hp, rfl⟩
    · cases h; exact .inl ⟨_, rfl⟩
  case ret =>
    simp only [exec, execRet] at h
    split at h
    · next hu =>
      obtain ⟨hp, rfl, rfl⟩ := State.pop_eq_some hu
      cases h; exact .inr ⟨hp, by have := s.sp_le; show _ < 16; omega, rfl⟩
    · cases h; exact .inl ⟨_, rfl⟩
  case drw x y n =>
    simp only [exec, execDrw] at h
    rcases checked_next h with ⟨-, h⟩ | ⟨-, h⟩
    · cases h; exact .inr ⟨_, _, rfl⟩
    · exact .inl ⟨_, h⟩
  case ldB x =>
    simp only [exec, execLdB] at h
    rcases checked_next h with ⟨-, h⟩ | ⟨-, h⟩
    · cases h; exact .inr ⟨_, rfl⟩
    · exact .inl ⟨_, h⟩
  case storeRegs x =>
    simp only [exec, execStoreRegs] at h
    rcases checked_next h with ⟨-, h⟩ | ⟨-, h⟩
    · cases h
      obtain ⟨w, e⟩ := State.bumpIndex_eq { s with mem := s.mem.writeBytes (effAddr s) (s.regsUpTo x) } x
      exact .inr ⟨_, w, e⟩
    · exact .inl ⟨_, h⟩
  case loadRegs x =>
    simp only [exec, execLoadRegs] at h
    rcases checked_next h with ⟨-, h⟩ | ⟨-, h⟩
    · cases h
      have hx := x.isLt
      obtain ⟨w, e⟩ := State.bumpIndex_eq (s.loadV 0 (s.mem.readBytes (effAddr s) (x.toNat + 1))) x
      refine .inr ⟨_, w, by rw [e, State.loadV_eq], fun k hk => ?_⟩
      rw [e]
      show (s.loadV 0 _).getV k = _
      rw [State.getV_loadV _ _ _ _ (by simp; omega), dif_neg]
      rw [Memory.length_readBytes]
      have hk : ¬ k.toNat ≤ x.toNat := hk
      omega
    · exact .inl ⟨_, h⟩
  all_goals
    cases h
    first
      | exact .inr rfl
      | exact .inr ⟨_, rfl⟩
      | exact .inr ⟨_, _, rfl⟩

end Sys2Proof.Machine
end

