-- ==== Sys2Proof/Laws/Flags.lean ====
section
/-!
SUPPORT. The arithmetic results and flags as numbers (spec/41_arithmetic_logic.md R153), and everything
`WriteResultAndFlag` does to the registers (R140).
-/

namespace Sys2Proof.Machine

theorem toNat_flagByte (b : Bool) : (flagByte b).toNat = if b then 1 else 0 := by cases b <;> rfl

theorem toNat_sumByte (a b : Byte) : (sumByte a b).toNat = (a.toNat + b.toNat) % 256 := by simp [sumByte]

theorem toNat_diffByte (a b : Byte) : (diffByte a b).toNat = (a.toNat + 256 - b.toNat) % 256 := by simp [diffByte]

theorem carry_iff (a b : Byte) : carry a b = true ↔ 255 < a.toNat + b.toNat := by simp [carry]; omega

theorem noBorrow_iff (a b : Byte) : noBorrow a b = true ↔ b.toNat ≤ a.toNat := by simp [noBorrow]

theorem toNat_shrByte (a : Byte) : (shrByte a).toNat = a.toNat / 2 := by
  simp [shrByte, Nat.shiftRight_eq_div_pow]

theorem toNat_shlByte (a : Byte) : (shlByte a).toNat = 2 * a.toNat % 256 := by
  simp [shlByte, Nat.shiftLeft_eq, Nat.mul_comm]

theorem shrOut_iff (a : Byte) : shrOut a = true ↔ a.toNat % 2 = 1 := by
  simp [shrOut, BitVec.getLsbD, Nat.testBit, Nat.one_and_eq_mod_two]

theorem shlOut_iff (a : Byte) : shlOut a = true ↔ 128 ≤ a.toNat := by
  have := a.isLt
  simp [shlOut, BitVec.getLsbD, Nat.testBit, Nat.shiftRight_eq_div_pow, Nat.one_and_eq_mod_two]
  omega

/-- `WriteResultAndFlag` with a destination other than `VF`: the result there, the flag in `VF`, in either order. -/
theorem State.getV_writeResultAndFlag (s : State) (x k : Nibble) (r : Byte) (f : Bool) (hx : x ≠ Config.flagReg) :
    (s.writeResultAndFlag x r f).getV k =
      if k = x then r else if k = Config.flagReg then flagByte f else s.getV k := by
  unfold State.writeResultAndFlag State.setVf
  split
  · simp only [State.getV_setV]
  · simp only [State.getV_setV]
    by_cases hk : k = x
    · rw [if_pos hk, if_neg (hk ▸ hx), if_pos hk]
    · simp [hk]

/-- `WriteResultAndFlag` with destination `VF`: the last write wins. -/
theorem State.getV_writeResultAndFlag_flagReg (s : State) (k : Nibble) (r : Byte) (f : Bool) :
    (s.writeResultAndFlag Config.flagReg r f).getV k =
      if k = Config.flagReg then (if s.cfg.qResultLast then r else flagByte f) else s.getV k := by
  unfold State.writeResultAndFlag State.setVf
  split <;> simp only [State.getV_setV] <;> split <;> simp_all

end Sys2Proof.Machine
end

