-- ==== Sys2Proof/Laws/PerInstr.lean ====
section
/-!
SUPPORT. The statement made per instruction: the encoding of every instruction lies in its own row of the opcode table
(spec/30_encoding.md R92, R95), whatever its operands.
-/

namespace Sys2Proof.Laws.EncodedInRow

/-- The instruction's row is one of the table's, and the encoded word belongs to it. -/
def Statement (i : Instr) : Prop := i.row ∈ opcodeTable ∧ i.row.accepts (encode i) = true

/-- It suffices that the row is in the table and that the masked word is the row's pattern. -/
theorem of_mask {i : Instr} (h : i.row ∈ opcodeTable) (e : encode i &&& i.row.mask = i.row.pattern) : Statement i :=
  ⟨h, by simp [OpcodeRow.accepts, e]⟩

theorem cls : Statement .cls := of_mask (by decide) (by decide)

theorem ret : Statement .ret := of_mask (by decide) (by decide)

theorem stop : Statement .stop := of_mask (by decide) (by decide)

theorem jp (nnn : Addr) : Statement (.jp nnn) :=
  of_mask (i := .jp nnn) (show Instr.row _ ∈ _ by simp [Instr.row, opcodeTable]) (mask_encodeNNN _ _)

theorem call (nnn : Addr) : Statement (.call nnn) :=
  of_mask (i := .call nnn) (show Instr.row _ ∈ _ by simp [Instr.row, opcodeTable]) (mask_encodeNNN _ _)

theorem seByte (x : Nibble) (nn : Byte) : Statement (.seByte x nn) :=
  of_mask (i := .seByte x nn) (show Instr.row _ ∈ _ by simp [Instr.row, opcodeTable]) (mask_category_encodeXNN _ _ _)

theorem sneByte (x : Nibble) (nn : Byte) : Statement (.sneByte x nn) :=
  of_mask (i := .sneByte x nn) (show Instr.row _ ∈ _ by simp [Instr.row, opcodeTable]) (mask_category_encodeXNN _ _ _)

theorem seReg (x y : Nibble) : Statement (.seReg x y) :=
  of_mask (i := .seReg x y) (show Instr.row _ ∈ _ by simp [Instr.row, opcodeTable]) (mask_selector_encodeXYN _ _ _ _)

theorem ldByte (x : Nibble) (nn : Byte) : Statement (.ldByte x nn) :=
  of_mask (i := .ldByte x nn) (show Instr.row _ ∈ _ by simp [Instr.row, opcodeTable]) (mask_category_encodeXNN _ _ _)

theorem addByte (x : Nibble) (nn : Byte) : Statement (.addByte x nn) :=
  of_mask (i := .addByte x nn) (show Instr.row _ ∈ _ by simp [Instr.row, opcodeTable]) (mask_category_encodeXNN _ _ _)

theorem ldReg (x y : Nibble) : Statement (.ldReg x y) :=
  of_mask (i := .ldReg x y) (show Instr.row _ ∈ _ by simp [Instr.row, opcodeTable]) (mask_selector_encodeXYN _ _ _ _)

theorem orReg (x y : Nibble) : Statement (.orReg x y) :=
  of_mask (i := .orReg x y) (show Instr.row _ ∈ _ by simp [Instr.row, opcodeTable]) (mask_selector_encodeXYN _ _ _ _)

theorem andReg (x y : Nibble) : Statement (.andReg x y) :=
  of_mask (i := .andReg x y) (show Instr.row _ ∈ _ by simp [Instr.row, opcodeTable]) (mask_selector_encodeXYN _ _ _ _)

theorem xorReg (x y : Nibble) : Statement (.xorReg x y) :=
  of_mask (i := .xorReg x y) (show Instr.row _ ∈ _ by simp [Instr.row, opcodeTable]) (mask_selector_encodeXYN _ _ _ _)

theorem addReg (x y : Nibble) : Statement (.addReg x y) :=
  of_mask (i := .addReg x y) (show Instr.row _ ∈ _ by simp [Instr.row, opcodeTable]) (mask_selector_encodeXYN _ _ _ _)

theorem subReg (x y : Nibble) : Statement (.subReg x y) :=
  of_mask (i := .subReg x y) (show Instr.row _ ∈ _ by simp [Instr.row, opcodeTable]) (mask_selector_encodeXYN _ _ _ _)

theorem shr (x y : Nibble) : Statement (.shr x y) :=
  of_mask (i := .shr x y) (show Instr.row _ ∈ _ by simp [Instr.row, opcodeTable]) (mask_selector_encodeXYN _ _ _ _)

theorem subnReg (x y : Nibble) : Statement (.subnReg x y) :=
  of_mask (i := .subnReg x y) (show Instr.row _ ∈ _ by simp [Instr.row, opcodeTable]) (mask_selector_encodeXYN _ _ _ _)

theorem shl (x y : Nibble) : Statement (.shl x y) :=
  of_mask (i := .shl x y) (show Instr.row _ ∈ _ by simp [Instr.row, opcodeTable]) (mask_selector_encodeXYN _ _ _ _)

theorem sneReg (x y : Nibble) : Statement (.sneReg x y) :=
  of_mask (i := .sneReg x y) (show Instr.row _ ∈ _ by simp [Instr.row, opcodeTable]) (mask_selector_encodeXYN _ _ _ _)

theorem ldI (nnn : Addr) : Statement (.ldI nnn) :=
  of_mask (i := .ldI nnn) (show Instr.row _ ∈ _ by simp [Instr.row, opcodeTable]) (mask_encodeNNN _ _)

theorem jpV0 (nnn : Addr) : Statement (.jpV0 nnn) :=
  of_mask (i := .jpV0 nnn) (show Instr.row _ ∈ _ by simp [Instr.row, opcodeTable]) (mask_encodeNNN _ _)

theorem rnd (x : Nibble) (nn : Byte) : Statement (.rnd x nn) :=
  of_mask (i := .rnd x nn) (show Instr.row _ ∈ _ by simp [Instr.row, opcodeTable]) (mask_category_encodeXNN _ _ _)

theorem drw (x y n : Nibble) : Statement (.drw x y n) :=
  of_mask (i := .drw x y n) (show Instr.row _ ∈ _ by simp [Instr.row, opcodeTable]) (mask_category_encodeXYN _ _ _ _)

theorem skp (x : Nibble) : Statement (.skp x) :=
  of_mask (i := .skp x) (show Instr.row _ ∈ _ by simp [Instr.row, opcodeTable]) (mask_selector_encodeXNN _ _ _)

theorem sknp (x : Nibble) : Statement (.sknp x) :=
  of_mask (i := .sknp x) (show Instr.row _ ∈ _ by simp [Instr.row, opcodeTable]) (mask_selector_encodeXNN _ _ _)

theorem ldVxDt (x : Nibble) : Statement (.ldVxDt x) :=
  of_mask (i := .ldVxDt x) (show Instr.row _ ∈ _ by simp [Instr.row, opcodeTable]) (mask_selector_encodeXNN _ _ _)

theorem ldVxK (x : Nibble) : Statement (.ldVxK x) :=
  of_mask (i := .ldVxK x) (show Instr.row _ ∈ _ by simp [Instr.row, opcodeTable]) (mask_selector_encodeXNN _ _ _)

theorem ldDtVx (x : Nibble) : Statement (.ldDtVx x) :=
  of_mask (i := .ldDtVx x) (show Instr.row _ ∈ _ by simp [Instr.row, opcodeTable]) (mask_selector_encodeXNN _ _ _)

theorem ldStVx (x : Nibble) : Statement (.ldStVx x) :=
  of_mask (i := .ldStVx x) (show Instr.row _ ∈ _ by simp [Instr.row, opcodeTable]) (mask_selector_encodeXNN _ _ _)

theorem addI (x : Nibble) : Statement (.addI x) :=
  of_mask (i := .addI x) (show Instr.row _ ∈ _ by simp [Instr.row, opcodeTable]) (mask_selector_encodeXNN _ _ _)

theorem ldF (x : Nibble) : Statement (.ldF x) :=
  of_mask (i := .ldF x) (show Instr.row _ ∈ _ by simp [Instr.row, opcodeTable]) (mask_selector_encodeXNN _ _ _)

theorem ldB (x : Nibble) : Statement (.ldB x) :=
  of_mask (i := .ldB x) (show Instr.row _ ∈ _ by simp [Instr.row, opcodeTable]) (mask_selector_encodeXNN _ _ _)

theorem storeRegs (x : Nibble) : Statement (.storeRegs x) :=
  of_mask (i := .storeRegs x) (show Instr.row _ ∈ _ by simp [Instr.row, opcodeTable]) (mask_selector_encodeXNN _ _ _)

theorem loadRegs (x : Nibble) : Statement (.loadRegs x) :=
  of_mask (i := .loadRegs x) (show Instr.row _ ∈ _ by simp [Instr.row, opcodeTable]) (mask_selector_encodeXNN _ _ _)

end Sys2Proof.Laws.EncodedInRow
end

