-- ==== Sys2Proof/Laws/Step.lean ====
section
/-!
SUPPORT. What a step can be (spec/40_cycle.md R120): idle, a fetch that raises, or the execution of what the fetched
word decodes to.
-/

namespace Sys2Proof.Machine

theorem step_waiting {s : State} {x : Nibble} (h : s.es = .waitingForKey x) : step s = .next s := by
  unfold step idle; rw [h]

theorem step_halted {s : State} {r : HaltReason} (h : s.es = .halted r) : step s = .next s := by
  unfold step idle; rw [h]

theorem step_fetchFails {s : State} (h : s.es = .running) (hp : 4094 < s.pc.toNat) :
    step s = .next (s.raise .outOfBounds) := by
  have hc : s.canFetch = false := by rw [← Bool.not_eq_true, State.canFetch_iff]; omega
  unfold step cycle; rw [h]; simp only [hc, checked_false]

theorem step_running {s : State} (h : s.es = .running) (hp : s.pc.toNat ≤ 4094) :
    step s = execDecoded (decode s.fetchWord) s.advance := by
  unfold step cycle; rw [h]; simp only [(State.canFetch_iff s).2 hp, checked_true]

/-- The three shapes of a step that answers `t`. -/
theorem step_cases {s t : State} (h : step s = .next t) :
    (s.es ≠ .running ∧ t = s) ∨
      (s.es = .running ∧ 4094 < s.pc.toNat ∧ t = s.raise .outOfBounds) ∨
      (s.es = .running ∧ s.pc.toNat ≤ 4094 ∧ execDecoded (decode s.fetchWord) s.advance = .next t) := by
  cases he : s.es with
  | running =>
    rcases Nat.lt_or_ge 4094 s.pc.toNat with hp | hp
    · rw [step_fetchFails he hp] at h
      exact .inr (.inl ⟨rfl, hp, (Host.Outcome.next.inj h).symm⟩)
    · rw [step_running he hp] at h
      exact .inr (.inr ⟨rfl, hp, h⟩)
  | waitingForKey x =>
    rw [step_waiting he] at h
    exact .inl ⟨by simp, (Host.Outcome.next.inj h).symm⟩
  | halted r =>
    rw [step_halted he] at h
    exact .inl ⟨by simp, (Host.Outcome.next.inj h).symm⟩

/-- The two outcomes of an unsupported opcode (R242). -/
theorem execUnsupported_eq (op : Opcode) (s : State) :
    execUnsupported op s = .next (if s.cfg.strict then s.raise .unsupportedInstruction
      else { s with report := s.report ++ [⟨s.pc - 2, op⟩] }) := by
  unfold execUnsupported; split <;> rfl

end Sys2Proof.Machine
end

