-- ==== Sys2Proof/Tests/Slice0.lean ====
section
/-!
SUPPORT. Tests of the model, each against a vector of spec/95_test_vectors.md or a value worked out by hand from the
rule named, and a witness for the hypotheses of each statement of Certificates/Slice0/Obligations.lean.
-/

namespace Sys2Proof.Tests

open Sys2Proof Sys2Proof.Machine

/-! ### Helpers -/

/-- The reset state with the word `op` at 0x200. -/
def placed (op : Opcode) : State := State.reset.placeWord op

/-- Two registers set. -/
def withRegs (s : State) (x : Nibble) (a : Byte) (y : Nibble) (b : Byte) : State := (s.setV x a).setV y b

/-- `V[1]` = `a`, `V[2]` = `b` and `VF` = 0x55, as in the vectors of section 2.2. -/
def arith (op : Opcode) (a b : Byte) : State := (withRegs (placed op) 1 a 2 b).setVf 0x55

/-- The answer is a next state that passes the check. -/
def after (a : Answer) (p : State → Bool) : Bool :=
  match a with
  | .next t => p t
  | .fault _ => false
  | .refused _ => false

/-- The next state's `V[1]`, `VF` and `pc`. -/
def leaves (s : State) (v1 vf : Byte) : Bool := after (step s) fun t => t.getV 1 == v1 && t.vf == vf && t.pc == 0x202

/-- Bytes placed in memory. -/
def withBytes (s : State) (a : Nat) (bytes : List Byte) : State := { s with mem := s.mem.writeBytes a bytes }

/-! ### Well-formedness (smoke) -/

/-- 00E0 is in the table, so `Unsupported(0x00E0)` is ill-formed. -/
theorem test_wellFormed_refuses_a_supported_word : (Decoded.unsupported 0x00E0).wellFormed = false := by decide

/-- 5AB0 is in the table (the check of a row with two fixed nibbles). -/
theorem test_wellFormed_refuses_5AB0 : (Decoded.unsupported 0x5AB0).wellFormed = false := by decide

/-- 5AB1 is not. -/
theorem test_wellFormed_accepts_5AB1 : (Decoded.unsupported 0x5AB1).wellFormed = true := by decide

/-! ### Decoding: a word of every row written out from spec/30_encoding.md R92 and R95 -/

theorem test_decode_cls : decode 0b0000000011100000 = .supported .cls := by decide
theorem test_decode_ret : decode 0b0000000011101110 = .supported .ret := by decide
theorem test_decode_stop : decode 0b0000000011111101 = .supported .stop := by decide
theorem test_decode_jp : decode 0b0001101010111100 = .supported (.jp 0xABC) := by decide
theorem test_decode_call : decode 0b0010101010111100 = .supported (.call 0xABC) := by decide
theorem test_decode_seByte : decode 0b0011101001111111 = .supported (.seByte 10 0x7F) := by decide
theorem test_decode_sneByte : decode 0b0100101001111111 = .supported (.sneByte 10 0x7F) := by decide
theorem test_decode_seReg : decode 0b0101101010110000 = .supported (.seReg 10 11) := by decide
theorem test_decode_ldByte : decode 0b0110000110101011 = .supported (.ldByte 1 0xAB) := by decide
theorem test_decode_addByte : decode 0b0111000100000001 = .supported (.addByte 1 0x01) := by decide
theorem test_decode_ldReg : decode 0b1000101010110000 = .supported (.ldReg 10 11) := by decide
theorem test_decode_orReg : decode 0b1000101010110001 = .supported (.orReg 10 11) := by decide
theorem test_decode_andReg : decode 0b1000101010110010 = .supported (.andReg 10 11) := by decide
theorem test_decode_xorReg : decode 0b1000101010110011 = .supported (.xorReg 10 11) := by decide
theorem test_decode_addReg : decode 0b1000101010110100 = .supported (.addReg 10 11) := by decide
theorem test_decode_subReg : decode 0b1000101010110101 = .supported (.subReg 10 11) := by decide
theorem test_decode_shr : decode 0b1000101010110110 = .supported (.shr 10 11) := by decide
theorem test_decode_subnReg : decode 0b1000101010110111 = .supported (.subnReg 10 11) := by decide
theorem test_decode_shl : decode 0b1000101010111110 = .supported (.shl 10 11) := by decide
theorem test_decode_sneReg : decode 0b1001101010110000 = .supported (.sneReg 10 11) := by decide
theorem test_decode_ldI : decode 0b1010001100000000 = .supported (.ldI 0x300) := by decide
theorem test_decode_jpV0 : decode 0b1011101010111100 = .supported (.jpV0 0xABC) := by decide
theorem test_decode_rnd : decode 0b1100101000001111 = .supported (.rnd 10 0x0F) := by decide
theorem test_decode_drw : decode 0b1101101010110101 = .supported (.drw 10 11 5) := by decide
theorem test_decode_skp : decode 0b1110101010011110 = .supported (.skp 10) := by decide
theorem test_decode_sknp : decode 0b1110101010100001 = .supported (.sknp 10) := by decide
theorem test_decode_ldVxDt : decode 0b1111101000000111 = .supported (.ldVxDt 10) := by decide
theorem test_decode_ldVxK : decode 0b1111101000001010 = .supported (.ldVxK 10) := by decide
theorem test_decode_ldDtVx : decode 0b1111101000010101 = .supported (.ldDtVx 10) := by decide
theorem test_decode_ldStVx : decode 0b1111101000011000 = .supported (.ldStVx 10) := by decide
theorem test_decode_addI : decode 0b1111101000011110 = .supported (.addI 10) := by decide
theorem test_decode_ldF : decode 0b1111101000101001 = .supported (.ldF 10) := by decide
theorem test_decode_ldB : decode 0b1111101000110011 = .supported (.ldB 10) := by decide
theorem test_decode_storeRegs : decode 0b1111101001010101 = .supported (.storeRegs 10) := by decide
theorem test_decode_loadRegs : decode 0b1111101001100101 = .supported (.loadRegs 10) := by decide

/-- The words of section 2.1 listed as unsupported, one per group. -/
theorem test_decode_unsupported :
    [0x0000, 0x00E1, 0x0123, 0x5AB1, 0x8AB8, 0x8ABF, 0x9AB1, 0xEA9F, 0xEAA0, 0xFA00, 0xFA75].all
      (fun op => decode op == .unsupported op) = true := by decide

/-- The table's numbering: the word is the number (one 16-bit word per instruction). -/
theorem test_decodeTableWord : decodeTableWord 16 0x8AB4 = some (.addReg 10 11) := by decide

/-! ### Arithmetic and logic (section 2.2) -/

theorem test_ldByte : leaves (arith 0x61AB 0 0) 0xAB 0x55 = true := by decide
theorem test_addByte_wraps : leaves (arith 0x7101 0xFF 0) 0x00 0x55 = true := by decide
theorem test_ldReg : leaves (arith 0x8120 0x11 0x22) 0x22 0x55 = true := by decide
theorem test_orReg : leaves (arith 0x8121 0x0C 0x0A) 0x0E 0x55 = true := by decide
theorem test_andReg : leaves (arith 0x8122 0x0C 0x0A) 0x08 0x55 = true := by decide
theorem test_xorReg : leaves (arith 0x8123 0x0C 0x0A) 0x06 0x55 = true := by decide
theorem test_addReg :
    leaves (arith 0x8124 0xFF 0x01) 0x00 0x01 = true ∧ leaves (arith 0x8124 0x7F 0x80) 0xFF 0x00 = true := by decide
theorem test_subReg_borrow : leaves (arith 0x8125 0x05 0x07) 0xFE 0x00 = true := by decide
theorem test_subReg_equal : leaves (arith 0x8125 0x07 0x07) 0x00 0x01 = true := by decide
theorem test_subnReg : leaves (arith 0x8127 0x05 0x07) 0x02 0x01 = true := by decide
theorem test_subnReg_borrow : leaves (arith 0x8127 0x07 0x05) 0xFE 0x00 = true := by decide

/-- Under `q_shift_vy` it is `V[2]` that is shifted. -/
theorem test_shr :
    leaves (arith 0x8126 0x05 0x08) 0x02 0x01 = true ∧
    leaves { arith 0x8126 0x05 0x08 with cfg := { qShiftVy := true } } 0x04 0x00 = true := by decide

theorem test_shl : leaves (arith 0x812E 0x81 0x01) 0x02 0x01 = true := by decide
theorem test_shl_vy : leaves { arith 0x812E 0x81 0x01 with cfg := { qShiftVy := true } } 0x02 0x00 = true := by decide

/-- 8F14 with `VF` = 0x85, `V[1]` = 0x90: the flag wins by default, the result under `q_result_last`. -/
theorem test_addReg_to_vf :
    after (step (withRegs (placed 0x8F14) 15 0x85 1 0x90)) (fun t => t.vf == 0x01) = true ∧
    after (step { withRegs (placed 0x8F14) 15 0x85 1 0x90 with cfg := { qResultLast := true } })
      (fun t => t.vf == 0x15) = true := by decide

/-- 8F16 the same, and shifting 0x90 under both quirks. -/
theorem test_shr_to_vf :
    after (step { withRegs (placed 0x8F16) 15 0x85 1 0x90 with cfg := { qResultLast := true } })
      (fun t => t.vf == 0x42) = true ∧
    after (step { withRegs (placed 0x8F16) 15 0x85 1 0x90 with cfg := { qResultLast := true, qShiftVy := true } })
      (fun t => t.vf == 0x48) = true := by decide

/-- C100 leaves 0 whatever was drawn: the drawn byte is a free value, so only its mask can be tested. -/
theorem test_rnd_masked : ∃ t, exec (.rnd 1 0x00) State.reset = .next t ∧ t.getV 1 = 0 :=
  ⟨_, rfl, BitVec.and_zero⟩

/-- One draw per `RND`. -/
theorem test_rnd_draws : after (step (arith 0xC10F 0x77 0)) (fun t => t.draws == 1 && t.vf == 0x55) = true := by decide

/-! ### Branch (section 2.3) -/

theorem test_jp : after (step (placed 0x1FFF)) (fun t => t.pc == 0xFFF) = true := by decide

/-- 2210 at 0x204. -/
theorem test_call :
    after (step (State.placeWord { State.reset with pc := 0x204 } 0x2210))
      (fun t => t.pc == 0x210 && t.sp == 1 && t.stack[0] == 0x0206) = true := by decide

theorem test_call_overflow :
    after (step { placed 0x2200 with sp := 16 })
      (fun t => t.pc == 0x202 && t.sp == 16 && t.es == .halted (.error .stackOverflow)) = true := by decide

theorem test_ret :
    after (step { placed 0x00EE with sp := 1, stack := State.reset.stack.set 0 0x0206 })
      (fun t => t.pc == 0x206 && t.sp == 0) = true := by decide

theorem test_ret_underflow :
    after (step (placed 0x00EE))
      (fun t => t.pc == 0x202 && t.sp == 0 && t.es == .halted (.error .stackUnderflow)) = true := by decide

/-- B300 with `V[0]` = 4, `V[3]` = 0x10. -/
theorem test_jpV0 :
    after (step (withRegs (placed 0xB300) 0 0x04 3 0x10)) (fun t => t.pc == 0x304) = true ∧
    after (step { withRegs (placed 0xB300) 0 0x04 3 0x10 with cfg := { qJumpVx := true } })
      (fun t => t.pc == 0x310) = true := by decide

/-- BFFF with `V[0]` = 0xFF: not reduced to 12 bits. -/
theorem test_jpV0_beyond : after (step ((placed 0xBFFF).setV 0 0xFF)) (fun t => t.pc == 0x10FE) = true := by decide

theorem test_seByte :
    after (step ((placed 0x3107).setV 1 0x07)) (fun t => t.pc == 0x204) = true ∧
    after (step ((placed 0x3107).setV 1 0x08)) (fun t => t.pc == 0x202) = true := by decide

theorem test_sneByte :
    after (step ((placed 0x4107).setV 1 0x07)) (fun t => t.pc == 0x202) = true ∧
    after (step ((placed 0x4107).setV 1 0x08)) (fun t => t.pc == 0x204) = true := by decide

theorem test_seReg :
    after (step (withRegs (placed 0x5120) 1 7 2 7)) (fun t => t.pc == 0x204) = true ∧
    after (step (withRegs (placed 0x5120) 1 7 2 8)) (fun t => t.pc == 0x202) = true := by decide

theorem test_sneReg :
    after (step (withRegs (placed 0x9120) 1 7 2 8)) (fun t => t.pc == 0x204) = true ∧
    after (step (placed 0x9110)) (fun t => t.pc == 0x202) = true := by decide

/-! ### Memory and index (section 2.4; FONT_BASE is left open, so `LD F` is tested by its offset) -/

theorem test_ldI : after (step (placed 0xAFFF)) (fun t => t.i == 0x0FFF) = true := by decide

theorem test_addI : after (step { (placed 0xF11E).setV 1 0x05 with i := 0x0FFE }) (fun t => t.i == 0x1003) = true := by
  decide

theorem test_addI_wraps :
    after (step { (placed 0xF11E).setV 1 0x01 with i := 0xFFFF }) (fun t => t.i == 0) = true := by decide

/-- F033 with `V[0]` = 0xFE. -/
theorem test_ldB :
    after (step { (placed 0xF033).setV 0 0xFE with i := 0x300 })
      (fun t => t.mem.readBytes 0x300 3 == [2, 5, 4] && t.i == 0x300) = true := by decide

theorem test_ldB_beyond :
    after (step { placed 0xF033 with i := 0xFFE })
      (fun t => t.pc == 0x202 && t.es == .halted (.error .outOfBounds)) = true := by decide

/-- F255 with `V[0..3]` = 02 05 04 99. -/
theorem test_storeRegs :
    after (step { withRegs (withRegs (placed 0xF255) 0 2 1 5) 2 4 3 0x99 with i := 0x300 })
      (fun t => t.mem.readBytes 0x300 4 == [2, 5, 4, 0] && t.i == 0x300) = true := by decide

/-- F055 at 0xFFF under `q_index_increment`. -/
theorem test_storeRegs_top :
    after (step { (placed 0xF055).setV 0 0xAB with i := 0xFFF, cfg := { qIndexIncrement := true } })
      (fun t => t.mem.read 0xFFF == 0xAB && t.i == 0x1000) = true := by decide

theorem test_loadRegs :
    after (step { withBytes ((placed 0xF265).setV 3 0x77) 0x300 [2, 5, 4, 9] with i := 0x300 })
      (fun t => t.regsUpTo 3 == [2, 5, 4, 0x77] && t.i == 0x300) = true := by decide

theorem test_loadRegs_vf :
    after (step { withBytes (placed 0xFF65) 0x300 [0, 0, 0, 0, 0, 0, 0, 0, 0, 0, 0, 0, 0, 0, 0, 0x33] with i := 0x300 })
      (fun t => t.vf == 0x33) = true := by decide

/-! ### Draw (section 2.5) -/

/-- Sprite row 0xC0 at (63, 31): the column wraps. -/
theorem test_drw_wraps :
    after (step { withBytes (withRegs (placed 0xD011) 0 63 1 31) 0x300 [0xC0] with i := 0x300 })
      (fun t => t.disp.pixel 31 63 && t.disp.pixel 31 0 && !t.disp.pixel 31 1 && t.vf == 0) = true := by decide

/-- Two rows at row 31: wrapped by default, dropped under `q_clip_rows`. -/
theorem test_drw_rows :
    after (step { withBytes (withRegs (placed 0xD012) 0 0 1 31) 0x300 [0x80, 0x80] with i := 0x300 })
      (fun t => t.disp.pixel 31 0 && t.disp.pixel 0 0) = true ∧
    after (step { withBytes (withRegs (placed 0xD012) 0 0 1 31) 0x300 [0x80, 0x80] with
        i := 0x300, cfg := { qClipRows := true } })
      (fun t => t.disp.pixel 31 0 && !t.disp.pixel 0 0) = true := by decide

/-! ### Timers and input (sections 2.6 and 2.7) -/

theorem test_ldDtVx : after (step ((placed 0xF015).setV 0 3)) (fun t => t.dt == 3) = true := by decide
theorem test_ldVxDt : after (step { placed 0xF207 with dt := 1 }) (fun t => t.getV 2 == 1) = true := by decide

theorem test_ldStVx :
    after (step ((placed 0xF118).setV 1 0x0A)) (fun t => t.st == 0x0A && t.soundTimerActive) = true := by decide

/-- `V[1]` = 0x17 selects key 7. -/
theorem test_skp :
    after (step (((placed 0xE19E).setV 1 0x17).setKey 7 true)) (fun t => t.pc == 0x204) = true ∧
    after (step ((placed 0xE19E).setV 1 0x07)) (fun t => t.pc == 0x202) = true := by decide

theorem test_sknp :
    after (step (((placed 0xE1A1).setV 1 0x07).setKey 7 true)) (fun t => t.pc == 0x202) = true ∧
    after (step ((placed 0xE1A1).setV 1 0x07)) (fun t => t.pc == 0x204) = true := by decide

theorem test_ldVxK :
    after (step (placed 0xF10A)) (fun t => t.es == .waitingForKey 1 && t.pc == 0x202) = true := by decide

/-- A press of key 7 ends the wait. -/
theorem test_ldVxK_released :
    after (step (placed 0xF10A)) (fun t =>
      (t.deliverKeyEvent 7 true).getV 1 == 0x07 && (t.deliverKeyEvent 7 true).es == .running &&
        (t.deliverKeyEvent 7 false).es == .waitingForKey 1) = true := by decide

/-! ### System, errors, host (section 2.8) -/

theorem test_cls :
    after (step { (placed 0x00E0).setVf 0x55 with disp := Display.blank.toggle 31 63 })
      (fun t => !t.disp.pixel 31 63 && t.vf == 0x55) = true := by decide

theorem test_stop : after (step (placed 0x00FD)) (fun t => t.es == .halted .stopped && t.pc == 0x202) = true := by decide

theorem test_unsupported_strict :
    after (step (placed 0x5121))
      (fun t => t.pc == 0x202 && t.es == .halted (.error .unsupportedInstruction) && t.report == []) = true := by decide

theorem test_unsupported_relaxed :
    after (step { placed 0x5121 with cfg := { strict := false } })
      (fun t => t.pc == 0x202 && t.es == .running && t.report == [⟨0x200, 0x5121⟩]) = true := by decide

theorem test_tickTimers :
    (State.tickTimers { State.reset with dt := 0, st := 1 }).dt = 0 ∧
      (State.tickTimers { State.reset with dt := 0, st := 1 }).st = 0 ∧
      (State.tickTimers { State.reset with dt := 0xFF }).dt = 0xFE := by decide

theorem test_anyPressed :
    ((State.reset.setKey 9 true).setKey 3 true).anyPressed = some 3 ∧ State.reset.anyPressed = none := by decide

/-- `load([0x12, 0x00])` (section 2.9). -/
theorem test_load : (State.reset.load [0x12, 0x00]).mem.readBytes 0x200 3 = [0x12, 0x00, 0x00] := by decide

/-! ### Witnesses

For every statement of Certificates/Slice0/Obligations.lean with hypotheses, a named theorem with a state and operands
that meet them together, at the boundary of their range where they have one. -/

/-- `EncodeOfDecodeIsTheWord`. -/
theorem witness_encodeOfDecode : decode 0x5AB0 = .supported (.seReg 10 11) := by decide

/-- `UnsupportedIsExactlyOutsideTheTable`: the hypothesis of its second clause. -/
theorem witness_unsupportedWord : decode 0x5AB1 = .unsupported 0x5AB1 := by decide

/-- The last address a fetch can use. -/
def atTop (op : Opcode) : State := State.placeWord { State.reset with pc := 0xFFE } op

/-- `StepRunsTheDecodedInstruction`, both clauses, at `pc` = 4094. -/
theorem witness_stepRuns :
    (atTop 0x1200).es = .running ∧ (atTop 0x1200).pc.toNat = 4094 ∧
      decode ((atTop 0x1200).mem.read 4094 ++ (atTop 0x1200).mem.read 4095) = .supported (.jp 0x200) ∧
      (atTop 0x5121).es = .running ∧
      decode ((atTop 0x5121).mem.read 4094 ++ (atTop 0x5121).mem.read 4095) = .unsupported 0x5121 := by decide

/-- The first `pc` from which no fetch is possible. -/
def pcBeyond : State := { State.reset with pc := 0xFFF }

/-- A waiting engine. -/
def waiting : State := { State.reset with es := .waitingForKey 15 }

/-- A cleanly halted engine. -/
def halted : State := { State.reset with es := .halted .stopped }

/-- `StepWithoutAFetch`, its three clauses. -/
theorem witness_stepWithoutAFetch :
    pcBeyond.es = .running ∧ 4094 < pcBeyond.pc.toNat ∧ waiting.es = .waitingForKey 15 ∧ halted.es = .halted .stopped := by
  decide

/-- `HostStepReturnsTheErrorOfTheCycle`: a step that returns an error, and one that returns success. -/
theorem witness_hostStep :
    (pcBeyond.hostStep.any fun q => q.2 == .error .outOfBounds) = true ∧
      ((placed 0x6000).hostStep.any fun q => q.2 == .success) = true := by decide

/-- `V[1]` = 5, `V[2]` = 8 under `q_shift_vy`. -/
def shiftVy : State := { arith 0x8126 5 8 with cfg := { qShiftVy := true } }

/-- `ShiftsMoveOneBitIntoTheFlag`: the source under both settings of the quirk. -/
theorem witness_shiftSource :
    5 = (if (arith 0x8126 5 8).cfg.qShiftVy then (arith 0x8126 5 8).getV 2 else (arith 0x8126 5 8).getV 1).toNat ∧
      8 = (if shiftVy.cfg.qShiftVy then shiftVy.getV 2 else shiftVy.getV 1).toNat := by decide

/-- `AddSetsCarry`, `SubtractSetsNoBorrow`: both clauses of `ResultAndFlag`, `X` = 14 and `X` = 15. -/
theorem witness_resultAndFlag : (14 : Nibble) ≠ 15 ∧ (15 : Nibble) = 15 := by decide

/-- `OnlySixInstructionsTouchTheFlag`: a register load, and an add that stays running, neither with `V[15]` as its
destination. -/
theorem witness_onlySix :
    (∃ t, exec (.loadRegs 14) State.reset = .next t) ∧ hasDest (.loadRegs 14) 15 = false ∧
      writesFlag (.loadRegs 14) = false ∧
      (∃ t, exec (.addReg 14 15) State.reset = .next t ∧ State.reset.es = .running ∧ t.es = .running) ∧
      hasDest (.addReg 14 15) 15 = false ∧ writesFlag (.addReg 14 15) = true :=
  ⟨⟨_, rfl⟩, by decide, by decide, ⟨_, rfl, rfl, rfl⟩, by decide, by decide⟩

/-- `JumpSetsPc`: its last clause. -/
theorem witness_jump : (0xFFF : Addr) = 0xFFF ∧ State.reset.es = .running := by decide

/-- `CallPushesTheReturnAddress`, `ReturnPopsTheReturnAddress`: `sp` = 15, 16, 1 and 0. -/
theorem witness_callReturn :
    ({ State.reset with sp := 15 } : State).sp.val < 16 ∧ ({ State.reset with sp := 16 } : State).sp.val = 16 ∧
      0 < ({ State.reset with sp := 1 } : State).sp.val ∧ State.reset.sp.val = 0 := by decide

/-- `SkipsComparingRegisters`: the smallest and the largest low nibble of an unsupported word. -/
theorem witness_skipNibble : (1 : Nibble) ≠ 0 ∧ (15 : Nibble) ≠ 0 := by decide

/-- `JumpWithOffsetAddsTheSelectedRegister`. -/
theorem witness_jumpWithOffset : (15 : Nibble).toNat = (0xFFF : Addr).toNat / 256 := by decide

/-- `CallReturnSymmetry`: sixteen calls from an empty call stack, and none on a full one. -/
theorem witness_callReturnSymmetry :
    State.reset.sp.val + (List.replicate 16 (0x300 : Addr)).length ≤ 16 ∧
      ({ State.reset with sp := 16 } : State).sp.val + ([] : List Addr).length ≤ 16 ∧
      List.replicate 16 (0x300 : Addr) ≠ [] := by decide

/-- `I` at a given address. -/
def withI (i : IndexWord) : State := { State.reset with i := i }

/-- `BcdStoresThreeDigits`, `BlockStoreWritesAscending`, `BlockLoadReadsAscending`, `BlockLoadUndoesBlockStore`: the last
address that fits and the first that does not. -/
theorem witness_ranges :
    effAddr (withI 0xFFD) + 2 ≤ 4095 ∧ 4095 < effAddr (withI 0xFFE) + 2 ∧
      effAddr (withI 0xFF0) + (15 : Nibble).toNat ≤ 4095 ∧ 4095 < effAddr (withI 0xFF1) + (15 : Nibble).toNat := by decide

/-- `BlockLoadUndoesBlockStore`: the store completes. -/
theorem witness_blockStore : ∃ t, exec (.storeRegs 15) (withI 0xFF0) = .next t := ⟨_, rfl⟩

/-- `ReadAfterWrite`: the last address, and another. -/
theorem witness_readAfterWrite : 4095 ≤ 4095 ∧ (4094 : Nat) ≠ 4095 := by decide

/-- `StoredInstructionIsFetchedNext`. -/
theorem witness_storedInstruction : (atTop 0x1200).pc.toNat ≤ 4094 := by decide

/-- `DrawTogglesExactlyTheCoveredPixels`: no row at an address that does not exist, the last sprite that fits, the first
that does not. -/
theorem witness_draw :
    (0 : Nibble) = 0 ∧ (withI 0xFF1).i.toNat + (15 : Nibble).toNat - 1 ≤ 4095 ∧
      ((1 : Nibble) ≠ 0 ∧ 4095 < (withI 0x1000).i.toNat + (1 : Nibble).toNat - 1) := by decide

/-- `DrawingTwiceErases`. -/
theorem witness_drawingTwice :
    (0 : Nibble) ≠ 15 ∧ (14 : Nibble) ≠ 15 ∧ (withI 0xFFF).i.toNat + (1 : Nibble).toNat - 1 ≤ 4095 ∧
      (withI 0xFFF).disp = Display.blank := ⟨by decide, by decide, by decide, rfl⟩

/-- `KeySkipsTestTheSelectedKey`: a register above 15. -/
theorem witness_keySkip : (7 : Nibble).toNat = ((State.reset.setV 1 0x17).getV 1).toNat % 16 := by decide

/-- `KeyWaitRunsToItsRelease`. -/
theorem witness_keyWait : waiting.es = .waitingForKey 15 := by decide

/-- A relaxed machine with an unsupported word to fetch. -/
def relaxed : State := { placed 0x5121 with cfg := { strict := false } }

/-- `UnsupportedOpcodeIsFatalOrReported`, both clauses. -/
theorem witness_unsupported :
    (placed 0x5121).es = .running ∧ (placed 0x5121).pc.toNat ≤ 4094 ∧ supportedWord (placed 0x5121).fetchWord = false ∧
      (placed 0x5121).cfg.strict = true ∧ relaxed.es = .running ∧ relaxed.pc.toNat ≤ 4094 ∧
      supportedWord relaxed.fetchWord = false ∧ relaxed.cfg.strict = false := by decide

/-- `CycleRaisesExactlyByTheTable`, `RaisingCycleWritesNothingElse`: a running state whose step raises. -/
theorem witness_raise :
    pcBeyond.es = .running ∧ ∃ t, step pcBeyond = .next t ∧ t.es = .halted (.error .outOfBounds) :=
  ⟨rfl, _, rfl, rfl⟩

/-- The condition of the table holds there. -/
theorem witness_cycleRaises : CycleRaises pcBeyond .outOfBounds := .inl (by decide)

/-- `HaltedIsLeftOnlyByLoad`: a halted state, an operation with a move, and the longest image that fits. -/
theorem witness_halted :
    halted.es = .halted .stopped ∧ halted.apply .tickTimers = some (halted.tickTimers, .nothing) ∧
      (∀ image, HostOp.tickTimers ≠ .load image) ∧ (List.replicate 3584 (0 : Byte)).length ≤ 3584 :=
  ⟨rfl, rfl, nofun, by rw [List.length_replicate]⟩

/-- `EngineStateTransitions`: an operation with a move, and the release of a wait. -/
theorem witness_engineState :
    waiting.apply (.deliverKeyEvent 7 true) = some (waiting.deliverKeyEvent 7 true, .nothing) ∧
      waiting.es = .waitingForKey 15 := ⟨rfl, rfl⟩

/-- `InstructionsWriteOnlyTheirParts`. -/
theorem witness_writesOnly : (∃ t, exec .cls State.reset = .next t) ∧ mayWrite .cls .v = false :=
  ⟨⟨_, rfl⟩, by decide⟩

/-- `StepKeepsMemoryCanonical`, `StepKeepsPcBounded`, `StepKeepsPcEvenUnderTheSoftwareRule`, `EveryStepAnswersANextState`:
the state before a jump to an even address meets the invariants, and its step completes. -/
theorem witness_invariants :
    (placed 0x1204).MemCanonical ∧ (placed 0x1204).PcBounded ∧ (placed 0x1204).PcEven ∧
      EvenTarget (placed 0x1204) (decode (placed 0x1204).fetchWord) ∧ ∃ t, step (placed 0x1204) = .next t := by
  refine ⟨by unfold State.MemCanonical; decide, by unfold State.PcBounded; decide, by unfold State.PcEven; decide, ?_, _, rfl⟩
  rw [show decode (placed 0x1204).fetchWord = .supported (.jp 0x204) by decide]
  show (0x204 : Addr).toNat % 2 = 0
  decide

/-- `StaleStackEntriesAreUnobservable`: with one return address in use, an entry above it changed. -/
theorem witness_staleStack :
    (∀ k : Fin 16, k.val < ({ placed 0x00EE with sp := 1 } : State).sp.val →
        ((State.reset.stack.set 1 0xFFFF)[k]) = ({ placed 0x00EE with sp := 1 } : State).stack[k]) ∧
      ∃ t, step { placed 0x00EE with sp := 1 } = .next t := ⟨by decide, _, rfl⟩

/-- `SoundTimerAndReportAreNeverRead`. -/
theorem witness_soundTimer : ∃ t, step (placed 0xF118) = .next t := ⟨_, rfl⟩

/-- `KeyEventsUpdateTheLatch`: a release on a waiting engine, and a press on a running one. -/
theorem witness_keyEvents :
    waiting.es = .waitingForKey 15 ∧ (false = false ∨ ∀ x, waiting.es ≠ .waitingForKey x) ∧
      (true = false ∨ ∀ x, State.reset.es ≠ .waitingForKey x) := ⟨rfl, .inl rfl, .inr nofun⟩

/-- `LoadResetsAndCopiesTheImage` and `FirstLoadStartsTheSession`: the longest image that fits and the shortest that
does not. -/
theorem witness_load :
    (List.replicate 3584 (0xFF : Byte)).length ≤ 3584 ∧ 3584 < (List.replicate 3585 (0xFF : Byte)).length ∧
      3583 < (List.replicate 3584 (0xFF : Byte)).length := by
  simp only [List.length_replicate]; decide

/-- `ConfigurationIsImmutableInASession`: an operation a created instance has no move for, and an operation of a
session. -/
theorem witness_configuration :
    (∀ c, HostOp.step ≠ .configure c) ∧ (∀ image, HostOp.step ≠ .load image) ∧
      ∃ t r, State.reset.apply .shutdown = some (t, r) := ⟨nofun, nofun, _, _, rfl⟩

/-- `TicksCommuteWithOtherCycles`: a step that executes no timer instruction. -/
theorem witness_ticksCommute :
    (∃ t, step (placed 0x1204) = .next t) ∧
      ∀ x, decode (placed 0x1204).fetchWord ≠ .supported (.ldVxDt x) ∧
        decode (placed 0x1204).fetchWord ≠ .supported (.ldDtVx x) ∧
        decode (placed 0x1204).fetchWord ≠ .supported (.ldStVx x) := by
  refine ⟨⟨_, rfl⟩, ?_⟩
  rw [show decode (placed 0x1204).fetchWord = .supported (.jp 0x204) by decide]
  exact fun x => ⟨nofun, nofun, nofun⟩

end Sys2Proof.Tests
end

section
/-!
SUPPORT. The engine state after a step and after every host operation (spec/10_state.md R32): a cycle raises exactly
under the conditions of spec/60_exceptions.md R282, and a meaning that does not raise keeps `es` unless it is `STOP` or
`LD Vx, K`.
-/

namespace Sys2Proof.Machine

/-! ### Raising in the execute stage (R282) -/

theorem inRange_eq_false_of_last {a n : Nat} (hn : 0 < n) (h : 4095 < a + n - 1) : inRange a n = false :=
  (inRange_eq_false a n).2 ⟨hn, by omega⟩

/-- The table of causes is sufficient: under the condition of `k` the execute stage raises `k`. -/
theorem execDecoded_of_execRaises {s : State} {d : Decoded} {k : ErrorKind} (h : ExecRaises s d k) :
    execDecoded d s = .next (s.raise k) := by
  cases k with
  | loadError => exact h.elim
  | outOfBounds =>
    rcases h with ⟨x, y, n, rfl, hn, hr⟩ | ⟨x, rfl, hr⟩ | ⟨x, rfl, hr⟩ | ⟨x, rfl, hr⟩
    · simp only [execDecoded, exec, execDrw, effAddr, inRange_eq_false_of_last hn hr, checked_false]
    · simp only [execDecoded, exec, execLdB, effAddr, inRange_eq_false_of_last (n := 3) (by omega) hr, checked_false]
    · simp only [execDecoded, exec, execStoreRegs, effAddr, inRange_eq_false_of_last (Nat.succ_pos x.toNat) hr,
        checked_false]
    · simp only [execDecoded, exec, execLoadRegs, effAddr, inRange_eq_false_of_last (Nat.succ_pos x.toNat) hr,
        checked_false]
  | stackOverflow =>
    obtain ⟨⟨nnn, rfl⟩, hsp⟩ := h
    simp only [execDecoded, exec, execCall, (s.push_eq_none s.pc).2 hsp]
  | stackUnderflow =>
    obtain ⟨rfl, hsp⟩ := h
    simp only [execDecoded, exec, execRet, s.pop_eq_none.2 hsp]
  | unsupportedInstruction =>
    obtain ⟨⟨op, rfl⟩, hstrict⟩ := h
    simp only [execDecoded, execUnsupported_eq, if_pos hstrict]

/-- A checked operation whose body leaves the engine running ends in an error only by failing its check, and the error
is the check's. -/
theorem checked_error {ok : Bool} {k e : ErrorKind} {s t : State} {f : State → State}
    (h : checked ok e s (fun s => .next (f s)) = .next t) (hf : (f s).es = .running) (ht : t.es = .halted (.error k)) :
    ok = false ∧ k = e := by
  rcases checked_next h with ⟨-, hbody⟩ | ⟨hok, rfl⟩
  · rw [← Host.Outcome.next.inj hbody, hf] at ht; cases ht
  · cases ht; exact ⟨hok, rfl⟩

/-- The table of causes is necessary for an instruction: one that takes a running engine to `Halted(k)` meets the
condition of `k`. -/
theorem execRaises_of_exec {i : Instr} {s t : State} {k : ErrorKind} (hs : s.es = .running)
    (h : exec i s = .next t) (ht : t.es = .halted (.error k)) : ExecRaises s (.supported i) k := by
  cases i
  case call nnn =>
    simp only [exec, execCall] at h
    split at h
    · next hpush =>
      obtain ⟨_, rfl⟩ := State.push_eq_some hpush
      cases h; simp [hs] at ht
    · next hpush =>
      cases h; cases ht
      exact ⟨⟨nnn, rfl⟩, (s.push_eq_none s.pc).1 hpush⟩
  case ret =>
    simp only [exec, execRet] at h
    split at h
    · next hpop =>
      obtain ⟨_, _, rfl⟩ := State.pop_eq_some hpop
      cases h; simp [hs] at ht
    · next hpop =>
      cases h; cases ht
      exact ⟨rfl, s.pop_eq_none.1 hpop⟩
  case drw x y n =>
    simp only [exec, execDrw] at h
    obtain ⟨hok, rfl⟩ := checked_error h (by simp [hs]) ht
    obtain ⟨hn, hr⟩ := (inRange_eq_false _ _).1 hok
    exact .inl ⟨x, y, n, rfl, hn, by unfold effAddr at hr; omega⟩
  case ldB x =>
    simp only [exec, execLdB] at h
    obtain ⟨hok, rfl⟩ := checked_error h hs ht
    obtain ⟨-, hr⟩ := (inRange_eq_false _ _).1 hok
    exact .inr (.inl ⟨x, rfl, by unfold effAddr at hr; omega⟩)
  case storeRegs x =>
    simp only [exec, execStoreRegs] at h
    obtain ⟨hok, rfl⟩ := checked_error h (by simp [hs]) ht
    obtain ⟨-, hr⟩ := (inRange_eq_false _ _).1 hok
    exact .inr (.inr (.inl ⟨x, rfl, by unfold effAddr at hr; omega⟩))
  case loadRegs x =>
    simp only [exec, execLoadRegs] at h
    obtain ⟨hok, rfl⟩ := checked_error h (by rw [State.bumpIndex_es, State.loadV_eq]; exact hs) ht
    obtain ⟨-, hr⟩ := (inRange_eq_false _ _).1 hok
    exact .inr (.inr (.inr ⟨x, rfl, by unfold effAddr at hr; omega⟩))
  -- the others write no `es`, or one that is no error
  all_goals
    cases h
    simp [hs] at ht

/-- The table of causes is necessary: an execute stage that takes a running engine to `Halted(k)` meets the condition
of `k`. -/
theorem execRaises_of_execDecoded {d : Decoded} {s t : State} {k : ErrorKind} (hs : s.es = .running)
    (h : execDecoded d s = .next t) (ht : t.es = .halted (.error k)) : ExecRaises s d k := by
  cases d with
  | supported i => exact execRaises_of_exec hs h ht
  | unsupported op =>
    simp only [execDecoded, execUnsupported_eq] at h
    split at h
    · next hstrict => cases h; cases ht; exact ⟨⟨op, rfl⟩, hstrict⟩
    · cases h; simp [hs] at ht

/-! ### The engine state an instruction leaves -/

/-- Without a raise, only `STOP` and `LD Vx, K` write `es` (R232, R241). -/
theorem Effect.es_eq {i : Instr} {s t : State} (h : Effect i s t) (hkey : ∀ x, i ≠ .ldVxK x) (hstop : i ≠ .stop) :
    t.es = s.es := by
  cases i
  case ldVxK x => exact absurd rfl (hkey x)
  case stop => exact absurd rfl hstop
  case ret => obtain ⟨_, _, rfl⟩ := h; rfl
  case call => obtain ⟨_, rfl⟩ := h; rfl
  case drw => obtain ⟨_, _, rfl⟩ := h; rfl
  case addI | ldF | ldB => obtain ⟨_, rfl⟩ := h; rfl
  case storeRegs => obtain ⟨_, _, rfl⟩ := h; rfl
  case loadRegs => obtain ⟨_, _, rfl, _⟩ := h; rfl
  case seByte | sneByte | seReg | sneReg | skp | sknp => obtain ⟨c, rfl⟩ := h; exact s.skipIf_es c
  case addReg x _ | subReg x _ | shr x _ | subnReg x _ | shl x _ =>
    obtain ⟨b, f, rfl⟩ := h; exact s.writeResultAndFlag_es x b f
  case ldByte | addByte | ldReg | orReg | andReg | xorReg | ldVxDt => obtain ⟨_, rfl⟩ := h; rfl
  case cls | jp | jpV0 | ldI | rnd | ldDtVx | ldStVx => cases h; rfl

/-! ### One step (R32, R120) -/

/-- A cycle under the condition of `k` ends in `Halted(k)`. -/
theorem step_of_cycleRaises {s : State} {k : ErrorKind} (hs : s.es = .running) (h : CycleRaises s k) :
    ∃ t, step s = .next t ∧ t.es = .halted (.error k) := by
  rcases h with ⟨rfl, hpc⟩ | ⟨hpc, hexec⟩
  · exact ⟨_, step_fetchFails hs hpc, rfl⟩
  · have hadv : ExecRaises s.advance (decode s.fetchWord) k := by cases k <;> exact hexec
    exact ⟨_, (step_running hs hpc).trans (execDecoded_of_execRaises hadv), rfl⟩

/-- A cycle under no condition to raise fetches, and the execute stage raises nothing. -/
theorem execDecoded_of_not_cycleRaises {s t : State} (hs : s.es = .running) (h : step s = .next t)
    (hn : ∀ k, ¬ CycleRaises s k) :
    execDecoded (decode s.fetchWord) s.advance = .next t ∧ ∀ k, t.es ≠ .halted (.error k) := by
  rcases step_cases h with ⟨hne, -⟩ | ⟨-, hpc, -⟩ | ⟨-, hpc, hexec⟩
  · exact absurd hs hne
  · exact absurd (.inl ⟨rfl, hpc⟩) (hn .outOfBounds)
  · refine ⟨hexec, fun k ht => hn k (.inr ⟨hpc, ?_⟩)⟩
    have hadv := execRaises_of_execDecoded (s := s.advance) hs hexec ht
    cases k <;> exact hadv

/-- An unsupported opcode that raises nothing leaves the engine state alone (R242). -/
theorem execUnsupported_es {op : Opcode} {s t : State} (h : execUnsupported op s = .next t)
    (hn : ∀ k, t.es ≠ .halted (.error k)) : t.es = s.es := by
  rw [execUnsupported_eq] at h
  split at h
  · cases h; exact absurd rfl (hn _)
  · cases h; rfl

/-- An instruction that raises nothing has its effect. -/
theorem effect_of_exec {i : Instr} {s t : State} (h : exec i s = .next t) (hn : ∀ k, t.es ≠ .halted (.error k)) :
    Effect i s t := by
  rcases exec_effect h with ⟨k, rfl⟩ | heff
  · exact absurd rfl (hn k)
  · exact heff

theorem engineStateAfter_step {s t : State} (h : step s = .next t) : EngineStateAfter s .step t.es := by
  unfold EngineStateAfter
  cases hs : s.es with
  | waitingForKey x => cases (step_waiting hs).symm.trans h; exact hs
  | halted r => cases (step_halted hs).symm.trans h; exact hs
  | running =>
    by_cases hr : ∃ k, CycleRaises s k
    · obtain ⟨k, hk⟩ := hr
      obtain ⟨u, hu, hes⟩ := step_of_cycleRaises hs hk
      cases hu.symm.trans h
      exact .inl ⟨k, hk, hes⟩
    · have hn := not_exists.1 hr
      obtain ⟨hexec, herr⟩ := execDecoded_of_not_cycleRaises hs h hn
      refine .inr ⟨hn, ?_⟩
      cases hd : decode s.fetchWord with
      | unsupported op =>
        rw [hd] at hexec
        exact (execUnsupported_es hexec herr).trans hs
      | supported i =>
        rw [hd] at hexec
        have heff := effect_of_exec hexec herr
        split
        · next x hi => cases hi; rw [heff]
        · next hi => cases hi; rw [heff]
        · next hkey hstop =>
          exact (heff.es_eq (fun x e => hkey x (by rw [e])) fun e => hstop (by rw [e])).trans hs

/-! ### The other host operations (R32) -/

/-- `load` leaves the engine running exactly when the image fits (R251, R298). -/
theorem loadImage_es (cfg : QuirkConfig) (draws : Nat) (image : List Byte) :
    (loadImage cfg draws image).es = if 3584 < image.length then .halted (.error .loadError) else .running := by
  have hfit : Config.loadOffset + image.length > Config.memSize ↔ 3584 < image.length := by
    show 512 + image.length > 4096 ↔ _
    omega
  simp only [loadImage, hfit]
  split <;> rfl

theorem engineStateAfter_deliverKeyEvent (s : State) (key : Nibble) (pressed : Bool) :
    EngineStateAfter s (.deliverKeyEvent key pressed) (s.deliverKeyEvent key pressed).es := by
  unfold EngineStateAfter State.deliverKeyEvent
  cases hs : s.es with
  | waitingForKey x =>
    cases pressed with
    | true => rfl
    | false => exact hs
  | running => cases pressed <;> exact hs
  | halted r => cases pressed <;> exact hs

theorem engineStateAfter_shutdown (s : State) : EngineStateAfter s .shutdown s.shutdown.es := by
  unfold EngineStateAfter State.shutdown
  cases hs : s.es with
  | halted r => exact hs
  | running => rfl
  | waitingForKey x => rfl

/-- The release of a wait leaves the key's value in the recorded register (R255). -/
theorem getV_deliverKeyEvent_release {s : State} {x : Nibble} (key : Nibble) (hs : s.es = .waitingForKey x) :
    ((s.deliverKeyEvent key true).getV x).toNat = key.toNat := by
  have hrel : s.deliverKeyEvent key true = (s.setKey key true).releaseWait x key := by
    simp only [State.deliverKeyEvent, hs]
  have hget : (s.deliverKeyEvent key true).getV x = key.setWidth 8 := by
    rw [hrel]
    exact State.getV_setV_same (s.setKey key true) x (key.setWidth 8)
  have := key.isLt
  rw [hget, BitVec.toNat_setWidth]
  omega

/-- A step that the host sees answers the state of `step` (R120). -/
theorem step_of_hostStep {s t : State} {resp : Response} (h : s.hostStep = some (t, resp)) : step s = .next t := by
  unfold State.hostStep at h
  split at h
  · next u hu => split at h <;> cases h <;> exact hu
  · cases h
  · cases h

theorem engineStateAfter_apply {s t : State} {op : HostOp} {resp : Response} (h : s.apply op = some (t, resp)) :
    EngineStateAfter s op t.es := by
  cases op with
  | configure cfg => cases h
  | load image => cases h; exact loadImage_es s.cfg s.draws image
  | step => exact engineStateAfter_step (step_of_hostStep h)
  | deliverKeyEvent key pressed => cases h; exact engineStateAfter_deliverKeyEvent s key pressed
  | shutdown => cases h; exact engineStateAfter_shutdown s
  | tickTimers => cases h; exact s.tickTimers_es
  | displaySnapshot => cases h; exact rfl
  | soundTimerActive => cases h; exact rfl
  | isPressed key => cases h; exact rfl
  | anyPressed => cases h; exact rfl

/-- Settles O44: the transition table of R32, operation by operation; the cycle's row from the table of causes. -/
theorem engineStateTransitions : Obligations.EngineStateTransitions := by
  refine ⟨rfl, fun s t op resp h => ⟨engineStateAfter_apply h, ?_⟩⟩
  rintro x k hs rfl
  cases h
  exact getV_deliverKeyEvent_release k hs

/-! ### Reset (R39, R330) -/

/-- Reset memory holds the font and zero elsewhere: the font lies below the program (R68, R69). -/
theorem resetByte_eq (a : Nat) :
    resetByte a = if fontBase ≤ a ∧ a < fontBase + 80 then fontByte (a - fontBase) else 0 := by
  by_cases ha : Config.loadOffset ≤ a
  · have hfont := fontBase_le
    have hbeyond : ¬ (fontBase ≤ a ∧ a < fontBase + 80) := by
      have ha' : 512 ≤ a := ha
      omega
    rw [resetByte_program a ha, if_neg hbeyond]
  · rw [resetByte, if_neg ha]; rfl

theorem State.getV_reset (k : Nibble) : State.reset.getV k = 0 := by
  simp [State.getV, State.reset, State.resetWith]

theorem State.stack_reset (k : Fin 16) : State.reset.stack[k] = 0 := by
  simp [State.reset, State.resetWith]

theorem State.isPressed_reset (k : Nibble) : State.reset.isPressed k = false := by
  simp [State.isPressed, State.reset, State.resetWith]

/-- Settles O50: every component by its reset value; memory lists nothing, so it reads as `resetByte`. -/
theorem resetState : Obligations.ResetState :=
  ⟨rfl, rfl, resetByte_eq, fontBase_le, State.getV_reset, rfl, rfl, State.stack_reset, rfl, rfl,
    Display.pixel_blank, State.isPressed_reset, rfl, rfl⟩

end Sys2Proof.Machine
end

section
/-!
SUPPORT. The byte order of memory (spec/20_memory.md R63).
-/

namespace Sys2Proof.Machine

/-- Settles O6: a fetch combines the bytes at `pc` and `pc + 1` (R63), and `toNat_combine` gives the value of the
combined word; no other component of the state is read. -/
theorem fetchIsBigEndian : Obligations.FetchIsBigEndian := fun s =>
  toNat_combine (s.mem.read s.pc.toNat) (s.mem.read (s.pc.toNat + 1))

end Sys2Proof.Machine
end

section
/-!
SUPPORT. The result of a step as the host sees it (spec/40_cycle.md R126), and what a running step executes (R121 to
R124).
-/

namespace Sys2Proof.Machine

/-! ### Every step answers a next state (R120) -/

theorem checked_answersNext (ok : Bool) (k : ErrorKind) (s : State) (f : State → State) :
    ∃ t, checked ok k s (fun s => .next (f s)) = .next t := by
  cases ok <;> exact ⟨_, rfl⟩

/-- Every instruction answers a next state: one that fails its check, or finds the call stack full or empty, answers
the state it raised in. -/
theorem exec_answersNext (i : Instr) (s : State) : ∃ t, exec i s = .next t := by
  cases i
  case call nnn => simp only [exec, execCall]; split <;> exact ⟨_, rfl⟩
  case ret => simp only [exec, execRet]; split <;> exact ⟨_, rfl⟩
  case drw | ldB | storeRegs | loadRegs =>
    simp only [exec, execDrw, execLdB, execStoreRegs, execLoadRegs]
    exact checked_answersNext ..
  all_goals exact ⟨_, rfl⟩

theorem execDecoded_answersNext (d : Decoded) (s : State) : ∃ t, execDecoded d s = .next t := by
  cases d with
  | supported i => exact exec_answersNext i s
  | unsupported op => exact ⟨_, execUnsupported_eq op s⟩

theorem step_answersNext (s : State) : ∃ t, step s = .next t := by
  cases hs : s.es with
  | waitingForKey x => exact ⟨s, step_waiting hs⟩
  | halted r => exact ⟨s, step_halted hs⟩
  | running =>
    rcases Nat.lt_or_ge 4094 s.pc.toNat with hpc | hpc
    · exact ⟨_, step_fetchFails hs hpc⟩
    · rw [step_running hs hpc]; exact execDecoded_answersNext _ _

/-! ### The result of a step (R126) -/

/-- The table of causes decides the engine state a cycle ends in: `Halted(k)` exactly under the condition of `k`. -/
theorem cycleRaises_iff_halted {s t : State} (hs : s.es = .running) (h : step s = .next t) (k : ErrorKind) :
    CycleRaises s k ↔ t.es = .halted (.error k) := by
  have raised {k'} (hk : CycleRaises s k') : t.es = .halted (.error k') := by
    obtain ⟨u, hu, hes⟩ := step_of_cycleRaises hs hk
    cases hu.symm.trans h
    exact hes
  refine ⟨raised, fun ht => ?_⟩
  by_cases hr : ∃ k', CycleRaises s k'
  · obtain ⟨k', hk'⟩ := hr
    cases (raised hk').symm.trans ht
    exact hk'
  · exact absurd ht ((execDecoded_of_not_cycleRaises hs h (not_exists.1 hr)).2 k)

/-- `LoadError` is raised by `load` alone (R298). -/
theorem not_cycleRaises_loadError (s : State) : ¬ CycleRaises s .loadError := by
  rintro (⟨hk, -⟩ | ⟨-, hexec⟩)
  · cases hk
  · exact hexec

theorem stepResult_eq_some {s t : State} {k : ErrorKind} :
    stepResult s t = some k ↔ s.es = .running ∧ t.es = .halted (.error k) := by
  unfold stepResult
  split
  · next hs ht => simp [hs, ht]
  · next hne => simpa using fun hs ht => hne k hs ht

/-- A step's result read off the two states is the kind its cycle raised. -/
theorem stepResult_of_step {s t : State} (h : step s = .next t) (k : ErrorKind) :
    stepResult s t = some k ↔ s.es = .running ∧ CycleRaises s k :=
  stepResult_eq_some.trans (and_congr_right fun hs => (cycleRaises_iff_halted hs h k).symm)

/-- The host sees the next state and the result: success, or the kind. -/
theorem hostStep_eq {s t : State} (h : step s = .next t) :
    s.hostStep = some (t, (stepResult s t).elim .success .error) := by
  unfold State.hostStep
  rw [h]
  cases hr : stepResult s t <;> simp [hr]

/-- Settles O10: the result is `stepResult`, which is the kind of the table of causes (`stepResult_of_step`). -/
theorem hostStepReturnsTheErrorOfTheCycle : Obligations.HostStepReturnsTheErrorOfTheCycle := by
  intro s
  obtain ⟨t, ht⟩ := step_answersNext s
  have herror (k) : (stepResult s t).elim Response.success .error = .error k ↔ s.es = .running ∧ CycleRaises s k := by
    rw [← stepResult_of_step ht k]
    cases stepResult s t <;> simp
  refine ⟨t, _, hostStep_eq ht, ht, herror, fun k hk => ?_, ?_⟩
  · obtain ⟨hs, hraises⟩ := (herror k).1 hk
    refine ⟨(cycleRaises_iff_halted hs ht k).1 hraises, ?_⟩
    rintro rfl
    exact not_cycleRaises_loadError s hraises
  · simp only [← exists_and_left, ← stepResult_of_step ht]
    cases stepResult s t <;> simp

/-! ### What a running step executes (R121 to R124) -/

/-- Settles O7: `step_running` names the fetched word, which is the two bytes at `pc`, and `execDecoded` its arm. -/
theorem stepRunsTheDecodedInstruction : Obligations.StepRunsTheDecodedInstruction := by
  intro s hs hpc
  have hstep : step s = execDecoded (decode (s.mem.read s.pc.toNat ++ s.mem.read (s.pc.toNat + 1))) s.advance :=
    step_running hs hpc
  constructor
  · intro i hd
    rw [hstep, hd]; rfl
  · intro op hd
    rw [hstep, hd]; rfl

end Sys2Proof.Machine
end

section
/-!
SUPPORT. The arithmetic and logic instructions (spec/41_arithmetic_logic.md R141 to R148, R150): each writes one
register, or a result and a flag, and leaves every other component alone. An instruction's word
decodes to that instruction (R92, R95).
-/

namespace Sys2Proof.Machine

/-! ### The word of an instruction (R92, R95) -/

/-- Every instruction is read back from its word: the category and the selector of the format pick its arm. -/
theorem decode_encode_supported (i : Instr) : decode (encode i) = .supported i := by
  cases i
  case cls | ret | stop => rfl
  case ldReg | orReg | andReg | xorReg | addReg | subReg | shr | subnReg | shl =>
    simp [encode, decode, decodeArith]
  case skp | sknp => simp [encode, decode, decodeKey]
  case ldVxDt | ldVxK | ldDtVx | ldStVx | addI | ldF | ldB | storeRegs | loadRegs =>
    simp [encode, decode, decodeMisc]
  all_goals simp [encode, decode]

/-! ### The frames of the register writes (R140) -/

/-- A new register file in an otherwise equal state changes no other component. -/
theorem State.changesOnly_withV {s t : State} (h : ∃ vs, t = { s with v := vs }) : ChangesOnly [.v] s t := by
  obtain ⟨vs, rfl⟩ := h
  intro p hp
  cases p with
  | v => exact absurd List.mem_cons_self hp
  | stack | mem | keys => exact fun _ => rfl
  | disp => exact fun _ _ => rfl
  | i | pc | sp | dt | st | es | cfg | report | draws => rfl

theorem State.regsSameBut_setV (s : State) (x : Nibble) (b : Byte) : RegsSameBut [x] s (s.setV x b) :=
  fun _ hk => State.getV_setV_ne s b (List.ne_of_not_mem_cons hk)

/-- A meaning that writes one register leaves the byte there and nothing else changed. -/
theorem exec_setV {i : Instr} {s : State} {x : Nibble} {b : Byte} (h : exec i s = .next (s.setV x b)) :
    ∃ t, exec i s = .next t ∧ t.getV x = b ∧ RegsSameBut [x] s t ∧ ChangesOnly [.v] s t :=
  ⟨_, h, s.getV_setV_same x b, s.regsSameBut_setV x b, State.changesOnly_withV ⟨_, rfl⟩⟩

/-- `WriteResultAndFlag` in the numbers of `ResultAndFlag`: at `x` = 15 the configuration decides which write stands. -/
theorem State.resultAndFlag_write (s : State) (x : Nibble) (r : Byte) (f : Bool) :
    ResultAndFlag s (s.writeResultAndFlag x r f) x r.toNat (if f then 1 else 0) := by
  refine ⟨fun hx => ?_, ?_, fun k hk => ?_, State.changesOnly_withV (s.writeResultAndFlag_eq x r f)⟩
  · simp only [State.getV_writeResultAndFlag s x _ r f hx, if_neg (Ne.symm hx), if_true, toNat_flagByte, and_self]
  · rintro rfl
    rw [State.getV_writeResultAndFlag_flagReg, if_pos rfl, apply_ite BitVec.toNat, toNat_flagByte]
  · obtain ⟨hkx, hkf⟩ : k ≠ x ∧ k ≠ Config.flagReg := by simpa using hk
    by_cases hx : x = Config.flagReg
    · subst hx
      rw [State.getV_writeResultAndFlag_flagReg, if_neg hkf]
    · rw [State.getV_writeResultAndFlag s x k r f hx, if_neg hkx, if_neg hkf]

/-- A meaning that writes a result and a flag, with both given as numbers. -/
theorem exec_writeResultAndFlag {i : Instr} {s : State} {x : Nibble} {r : Byte} {f : Bool} {result : Nat} {p : Prop}
    [Decidable p] (h : exec i s = .next (s.writeResultAndFlag x r f)) (hr : r.toNat = result) (hf : f = true ↔ p) :
    ∃ t, exec i s = .next t ∧ ResultAndFlag s t x result (if p then 1 else 0) := by
  refine ⟨_, h, ?_⟩
  have hwrite := s.resultAndFlag_write x r f
  simpa only [hr, hf] using hwrite

/-! ### The statements -/

/-- Settles O11: each of the three writes one register, `ADD Vx, byte` the sum that `toNat_sumByte` gives as a number. -/
theorem loadAndAddImmediateAndCopy : Obligations.LoadAndAddImmediateAndCopy := by
  refine ⟨fun x nn s => ⟨decode_encode_supported (.ldByte x nn), exec_setV rfl⟩,
    fun x nn s => ⟨decode_encode_supported (.addByte x nn), ?_⟩,
    fun x y s => ⟨decode_encode_supported (.ldReg x y), exec_setV rfl⟩⟩
  obtain ⟨t, ht, hx, hframe⟩ := exec_setV (i := .addByte x nn) (s := s) rfl
  exact ⟨t, ht, hx ▸ toNat_sumByte (s.getV x) nn, hframe⟩

/-- Settles O12: each of the three writes the combination to one register, and no flag. -/
theorem logicInstructionsCombineBits : Obligations.LogicInstructionsCombineBits :=
  ⟨fun x y _ => ⟨decode_encode_supported (.orReg x y), exec_setV rfl⟩,
    fun x y _ => ⟨decode_encode_supported (.andReg x y), exec_setV rfl⟩,
    fun x y _ => ⟨decode_encode_supported (.xorReg x y), exec_setV rfl⟩⟩

/-- Settles O13: the sum by `toNat_sumByte`, the carry by `carry_iff`. -/
theorem addSetsCarry : Obligations.AddSetsCarry := fun x y _ =>
  ⟨decode_encode_supported (.addReg x y), exec_writeResultAndFlag rfl (toNat_sumByte _ _) (carry_iff _ _)⟩

/-- Settles O14: the difference by `toNat_diffByte`, the flag by `noBorrow_iff`; `SUBN` exchanges the operands. -/
theorem subtractSetsNoBorrow : Obligations.SubtractSetsNoBorrow :=
  ⟨fun x y _ => ⟨decode_encode_supported (.subReg x y),
      exec_writeResultAndFlag rfl (toNat_diffByte _ _) (noBorrow_iff _ _)⟩,
    fun x y _ => ⟨decode_encode_supported (.subnReg x y),
      exec_writeResultAndFlag rfl (toNat_diffByte _ _) (noBorrow_iff _ _)⟩⟩

end Sys2Proof.Machine
end

section
/-!
SUPPORT. The branch instructions (spec/42_branch.md R171, R173 to R177): each writes `pc`, `RET` also `sp`, and leaves
every other component alone.
-/

namespace Sys2Proof.Machine

/-! ### The frames of the control writes (R170, R172, R173) -/

/-- A component that reads the same after all need not be listed. -/
theorem ChangesOnly.of_cons {p : Part} {ps : List Part} {s t : State} (h : ChangesOnly (p :: ps) s t)
    (hp : p.Same s t) : ChangesOnly ps s t := by
  intro q hq
  by_cases hqp : q = p
  · rwa [hqp]
  · exact h q (by simp [hqp, hq])

/-- A new call stack and `pc` in an otherwise equal state change no other component. -/
theorem State.changesOnly_withControl {s t : State}
    (h : ∃ entries n a, t = { s with stack := entries, sp := n, pc := a }) : ChangesOnly [.stack, .sp, .pc] s t := by
  obtain ⟨entries, n, a, rfl⟩ := h
  intro p hp
  cases p with
  | stack | sp | pc => simp at hp
  | v | mem | keys => exact fun _ => rfl
  | disp => exact fun _ _ => rfl
  | i | dt | st | es | cfg | report | draws => rfl

theorem State.changesOnly_withSpPc {s t : State} (h : ∃ n a, t = { s with sp := n, pc := a }) :
    ChangesOnly [.sp, .pc] s t := by
  obtain ⟨n, a, rfl⟩ := h
  exact (State.changesOnly_withControl ⟨s.stack, n, a, rfl⟩).of_cons fun _ => rfl

theorem State.changesOnly_withPc {s t : State} (h : ∃ a, t = { s with pc := a }) : ChangesOnly [.pc] s t := by
  obtain ⟨a, rfl⟩ := h
  exact (State.changesOnly_withSpPc ⟨s.sp, a, rfl⟩).of_cons rfl

/-! ### Skips (R174 to R177) -/

/-- A meaning that skips under `p` advances `pc` by two more exactly then, and changes nothing else. -/
theorem exec_skipIf {i : Instr} {s : State} {c : Bool} {p : Prop} [Decidable p] (h : exec i s = .next (s.skipIf c))
    (hc : c = true ↔ p) :
    ∃ t, exec i s = .next t ∧ t.pc = (if p then s.pc + 2 else s.pc) ∧ ChangesOnly [.pc] s t :=
  ⟨_, h, by simp only [State.skipIf_pc, hc], State.changesOnly_withPc (s.skipIf_eq c)⟩

/-- A skip when two bytes differ, with the equal case first. -/
theorem exec_skipIf_ne {i : Instr} {s : State} {a b : Byte} (h : exec i s = .next (s.skipIf (a != b))) :
    ∃ t, exec i s = .next t ∧ t.pc = (if a = b then s.pc else s.pc + 2) ∧ ChangesOnly [.pc] s t := by
  simpa only [ne_eq, ite_not] using exec_skipIf h bne_iff_ne

/-- The groups 5 and 9 hold one instruction each, at low nibble 0 (R95, R97). -/
theorem decode_registerSkip_ne_supported {c n : Nibble} (hc : c = 0x5 ∨ c = 0x9) (x y : Nibble) (hn : n ≠ 0#4)
    (i : Instr) : decode (encodeXYN c x y n) ≠ .supported i := by
  rcases hc with rfl | rfl <;> simp [decode, hn]

/-! ### Returns (R173) -/

/-- `RET` on a call stack that is not empty: `sp` counts one less and `pc` is the entry at the new `sp`. -/
theorem exec_ret_of_pos {s : State} (h : 0 < s.sp.val) :
    ∃ t, exec .ret s = .next t ∧ t.sp.val = s.sp.val - 1 ∧ (∀ k : Fin 16, k.val = t.sp.val → t.pc = s.stack[k]) ∧
      ChangesOnly [.sp, .pc] s t := by
  cases hpop : s.pop with
  | none => exact absurd (s.pop_eq_none.1 hpop) h.ne'
  | some q =>
    obtain ⟨a, u⟩ := q
    have hexec : exec .ret s = .next (u.jump a) := by simp only [exec, execRet, hpop]
    obtain ⟨_, rfl, rfl⟩ := State.pop_eq_some hpop
    refine ⟨_, hexec, rfl, fun k hk => ?_, State.changesOnly_withSpPc ⟨_, _, rfl⟩⟩
    have hk : k.val = s.sp.val - 1 := hk
    simp [hk]

/-- `RET` on an empty call stack raises. -/
theorem exec_ret_of_zero {s : State} (h : s.sp.val = 0) : exec .ret s = .next (s.raise .stackUnderflow) := by
  simp only [exec, execRet, s.pop_eq_none.2 h]

/-! ### The statements -/

/-- Settles O18: the jump writes `pc` unchecked, and no fetch is possible at 0xFFF (`step_fetchFails`). -/
theorem jumpSetsPc : Obligations.JumpSetsPc := by
  intro nnn s
  refine ⟨decode_encode_supported (.jp nnn), s.jump (addrOperand nnn), rfl, toNat_addrOperand nnn,
    State.changesOnly_withPc ⟨_, rfl⟩, ?_⟩
  rintro rfl hs
  have hpc : 4094 < (s.jump (addrOperand 0xFFF)).pc.toNat := by
    rw [State.jump_pc, toNat_addrOperand]
    decide
  exact ⟨_, step_fetchFails hs hpc, rfl⟩

/-- Settles O20: the pop that `RET` makes succeeds exactly when `sp` is above 0. -/
theorem returnPopsTheReturnAddress : Obligations.ReturnPopsTheReturnAddress := fun _ =>
  ⟨decode_encode_supported .ret, exec_ret_of_pos, fun h => ⟨_, exec_ret_of_zero h, rfl⟩⟩

/-- Settles O21: both skip on the comparison of `V[X]` with the immediate. -/
theorem skipsComparingAByte : Obligations.SkipsComparingAByte :=
  ⟨fun x nn _ => ⟨decode_encode_supported (.seByte x nn), exec_skipIf rfl beq_iff_eq⟩,
    fun x nn _ => ⟨decode_encode_supported (.sneByte x nn), exec_skipIf_ne rfl⟩⟩

/-- Settles O22: both skip on the comparison of the two registers, and only the low nibble 0 is an instruction. -/
theorem skipsComparingRegisters : Obligations.SkipsComparingRegisters :=
  ⟨fun x y _ hn =>
      ⟨decode_registerSkip_ne_supported (.inl rfl) x y hn, decode_registerSkip_ne_supported (.inr rfl) x y hn⟩,
    fun x y _ => ⟨decode_encode_supported (.seReg x y), exec_skipIf rfl beq_iff_eq⟩,
    fun x y _ => ⟨decode_encode_supported (.sneReg x y), exec_skipIf_ne rfl⟩⟩

end Sys2Proof.Machine
end

section
/-!
SUPPORT. The memory and index-register instructions (spec/43_memory_index.md R190, R193 to R195): each is a range check
and a write of bytes, registers or `I`, and leaves every other component alone.
-/

namespace Sys2Proof.Machine

/-! ### The frames of the index and memory writes -/

/-- A component that reads the same after all need not be listed, wherever the list has it. -/
theorem ChangesOnly.erase {p : Part} {ps : List Part} {s t : State} (h : ChangesOnly ps s t) (hp : p.Same s t) :
    ChangesOnly (ps.erase p) s t := by
  intro q hq
  by_cases hqp : q = p
  · rwa [hqp]
  · exact h q (mt (List.mem_erase_of_ne hqp).2 hq)

/-- New registers, memory and `I` in an otherwise equal state change no other component. -/
theorem State.changesOnly_withVMemI {s t : State} (h : ∃ vs m w, t = { s with v := vs, mem := m, i := w }) :
    ChangesOnly [.v, .mem, .i] s t := by
  obtain ⟨vs, m, w, rfl⟩ := h
  intro p hp
  cases p with
  | v | mem | i => simp at hp
  | stack | keys => exact fun _ => rfl
  | disp => exact fun _ _ => rfl
  | pc | sp | dt | st | es | cfg | report | draws => rfl

theorem State.changesOnly_withMemI {s t : State} (h : ∃ m w, t = { s with mem := m, i := w }) :
    ChangesOnly [.mem, .i] s t := by
  obtain ⟨m, w, rfl⟩ := h
  exact (State.changesOnly_withVMemI ⟨s.v, m, w, rfl⟩).of_cons fun _ => rfl

theorem State.changesOnly_withVI {s t : State} (h : ∃ vs w, t = { s with v := vs, i := w }) :
    ChangesOnly [.v, .i] s t := by
  obtain ⟨vs, w, rfl⟩ := h
  exact (State.changesOnly_withVMemI ⟨vs, s.mem, w, rfl⟩).erase (p := .mem) fun _ => rfl

theorem State.changesOnly_withI {s t : State} (h : ∃ w, t = { s with i := w }) : ChangesOnly [.i] s t := by
  obtain ⟨w, rfl⟩ := h
  exact (State.changesOnly_withMemI ⟨s.mem, w, rfl⟩).of_cons fun _ => rfl

theorem State.changesOnly_withMem {s t : State} (h : ∃ m, t = { s with mem := m }) : ChangesOnly [.mem] s t := by
  obtain ⟨m, rfl⟩ := h
  exact (State.changesOnly_withMemI ⟨m, s.i, rfl⟩).erase (p := .i) rfl

/-! ### Bytes stored in order (R64) -/

/-- The byte at the `k`-th address of a multi-byte store is the `k`-th one stored. -/
theorem Memory.read_writeBytes_add (m : Memory) {a k n : Nat} {bytes : List Byte} (hn : bytes.length = n)
    (h : a + n ≤ 4096) (hk : k < n) : (m.writeBytes a bytes).read (a + k) = bytes[k]'(hn ▸ hk) := by
  subst hn
  rw [Memory.read_writeBytes m a (a + k) bytes h, dif_pos ⟨by omega, by omega⟩]
  simp only [Nat.add_sub_cancel_left]

/-- A multi-byte store changes no byte outside its addresses. -/
theorem memSameBut_of_writeBytes {s t : State} {a n : Nat} {bytes : List Byte} (hn : bytes.length = n)
    (h : a + n ≤ 4096) (ht : t.mem = s.mem.writeBytes a bytes) : MemSameBut a n s t := by
  subst hn
  intro b hb
  rw [ht, Memory.read_writeBytes s.mem a b bytes h, dif_neg hb]

/-- The digits of a byte, as numbers: each fits in a byte (R193). -/
theorem bcdDigits_eq (b : Byte) :
    ∃ hundreds tens units : Byte, bcdDigits b = [hundreds, tens, units] ∧
      hundreds.toNat = b.toNat / 100 ∧ tens.toNat = b.toNat / 10 % 10 ∧ units.toNat = b.toNat % 10 := by
  have := b.isLt
  refine ⟨_, _, _, rfl, ?_⟩
  simp only [BitVec.toNat_ofNat]
  omega

/-! ### The block transfers' registers and `I` (R194, R195) -/

/-- `I` after a block transfer, in numbers. -/
theorem State.toNat_bumpIndex_i (s : State) (x : Nibble) :
    (s.bumpIndex x).i.toNat =
      if s.cfg.qIndexIncrement then (s.i.toNat + x.toNat + 1) % 65536 else s.i.toNat := by
  rw [State.bumpIndex_i, apply_ite BitVec.toNat, BitVec.toNat_ofNat, Nat.add_assoc]

/-- What every register holds after `V[0]` to `V[x]` are loaded from the address `a` on. -/
theorem State.getV_loadV_readBytes (s : State) (x k : Nibble) (a : Nat) :
    (s.loadV 0 (s.mem.readBytes a (x.toNat + 1))).getV k =
      if k ≤ x then s.mem.read (a + k.toNat) else s.getV k := by
  have hx := x.isLt
  rw [State.getV_loadV _ _ _ _ (by simp only [Memory.length_readBytes]; omega)]
  simp only [Memory.length_readBytes, BitVec.le_def]
  by_cases hk : k.toNat ≤ x.toNat
  · rw [dif_pos ⟨by omega, by omega⟩, if_pos hk]
    exact Memory.getElem_readBytes s.mem a (x.toNat + 1) k.toNat (by omega)
  · rw [dif_neg (by omega), if_neg hk]

/-! ### The range check (R61, R196, R282) -/

/-- An access whose bytes all exist is carried out. -/
theorem checked_of_fits {a n : Nat} {k : ErrorKind} {s : State} {f : State → Answer} (h : a + n ≤ 4096) :
    checked (inRange a n) k s f = f s := by
  rw [(inRange_iff a n).2 (.inr h), checked_true]

/-- An instruction that meets a cause of `k` raises it, and leaves every component but `es` (R281, R288). -/
theorem exec_of_execRaises {i : Instr} {s : State} {k : ErrorKind} (h : ExecRaises s (.supported i) k) :
    ∃ t, exec i s = .next t ∧ RaisedTo k s t :=
  ⟨_, execDecoded_of_execRaises h, rfl⟩

theorem exec_ldB_of_fits {x : Nibble} {s : State} (h : effAddr s + 2 ≤ 4095) :
    exec (.ldB x) s = .next { s with mem := s.mem.writeBytes (effAddr s) (bcdDigits (s.getV x)) } := by
  rw [exec, execLdB, checked_of_fits (by omega)]

theorem exec_storeRegs_of_fits {x : Nibble} {s : State} (h : effAddr s + x.toNat ≤ 4095) :
    exec (.storeRegs x) s =
      .next (State.bumpIndex { s with mem := s.mem.writeBytes (effAddr s) (s.regsUpTo x) } x) := by
  rw [exec, execStoreRegs, checked_of_fits (by omega)]

theorem exec_loadRegs_of_fits {x : Nibble} {s : State} (h : effAddr s + x.toNat ≤ 4095) :
    exec (.loadRegs x) s =
      .next (State.bumpIndex (s.loadV 0 (s.mem.readBytes (effAddr s) (x.toNat + 1))) x) := by
  rw [exec, execLoadRegs, checked_of_fits (by omega)]

/-! ### The statements -/

/-- Settles O25: the 12-bit address is below 4096, and `toNat_addrOperand` keeps its value. -/
theorem loadIndexIsZeroExtended : Obligations.LoadIndexIsZeroExtended := by
  intro nnn s
  refine ⟨decode_encode_supported (.ldI nnn), { s with i := addrOperand nnn }, rfl, toNat_addrOperand nnn, ?_,
    State.changesOnly_withI ⟨_, rfl⟩⟩
  exact (toNat_addrOperand nnn).trans_le (Nat.le_of_lt_succ nnn.isLt)

/-- Settles O27: the three stored bytes are the digits, each read back by `Memory.read_writeBytes_add`. -/
theorem bcdStoresThreeDigits : Obligations.BcdStoresThreeDigits := by
  intro x s
  refine ⟨decode_encode_supported (.ldB x), fun h => ?_, fun h => exec_of_execRaises (.inr (.inl ⟨x, rfl, h⟩)), rfl⟩
  obtain ⟨hundreds, tens, units, hdigits, hh, ht, hu⟩ := bcdDigits_eq (s.getV x)
  have hexec := exec_ldB_of_fits (x := x) h
  rw [hdigits] at hexec
  have hfits : effAddr s + 3 ≤ 4096 := Nat.succ_le_succ h
  have hread (k : Nat) (hk : k < 3) :=
    Memory.read_writeBytes_add s.mem (bytes := [hundreds, tens, units]) rfl hfits hk
  exact ⟨_, hexec, (congrArg _ (hread 0 (by decide))).trans hh, (congrArg _ (hread 1 (by decide))).trans ht,
    (congrArg _ (hread 2 (by decide))).trans hu, memSameBut_of_writeBytes rfl hfits rfl,
    State.changesOnly_withMem ⟨_, rfl⟩⟩

/-- Settles O28: the store leaves the registers `State.regsUpTo` in memory, the post-modification touches `I` alone. -/
theorem blockStoreWritesAscending : Obligations.BlockStoreWritesAscending := by
  intro x s
  refine ⟨decode_encode_supported (.storeRegs x), fun h => ?_,
    fun h => exec_of_execRaises (.inr (.inr (.inl ⟨x, rfl, h⟩))), rfl⟩
  have hlength := s.length_regsUpTo x
  have hfits : effAddr s + (x.toNat + 1) ≤ 4096 := Nat.succ_le_succ h
  refine ⟨_, exec_storeRegs_of_fits h, fun k hk => ?_,
    memSameBut_of_writeBytes hlength hfits (State.bumpIndex_mem _ x), State.toNat_bumpIndex_i _ x,
    State.changesOnly_withMemI ⟨_, State.bumpIndex_eq _ x⟩⟩
  have hk : k.toNat < x.toNat + 1 := Nat.lt_succ_of_le hk
  rw [State.bumpIndex_mem, Memory.read_writeBytes_add s.mem hlength hfits hk,
    State.getElem_regsUpTo s x k.toNat hk, BitVec.ofNat_toNat, BitVec.setWidth_eq]

/-- Settles O29: the load writes the registers alone (`State.loadV_eq`), the post-modification `I` alone. -/
theorem blockLoadReadsAscending : Obligations.BlockLoadReadsAscending := by
  intro x s
  refine ⟨decode_encode_supported (.loadRegs x), fun h => ?_,
    fun h => exec_of_execRaises (.inr (.inr (.inr ⟨x, rfl, h⟩)))⟩
  refine ⟨_, exec_loadRegs_of_fits h, fun k => ?_, ?_, ?_⟩
  · rw [State.getV_congr (State.bumpIndex_v _ x) k, State.getV_loadV_readBytes]
    rfl
  · rw [State.toNat_bumpIndex_i, State.loadV_eq]
  · rw [State.loadV_eq]
    obtain ⟨w, hw⟩ := State.bumpIndex_eq { s with v := _ } x
    exact State.changesOnly_withVI ⟨_, w, hw⟩

end Sys2Proof.Machine
end

section
/-!
SUPPORT. The timer instructions (spec/45_timer.md R220 to R222): each copies between a register and a timer, and leaves
every other component alone.
-/

namespace Sys2Proof.Machine

/-! ### The frames of the timer writes -/

/-- New timers in an otherwise equal state change no other component. -/
theorem State.changesOnly_withTimers {s t : State} (h : ∃ d b, t = { s with dt := d, st := b }) :
    ChangesOnly [.dt, .st] s t := by
  obtain ⟨d, b, rfl⟩ := h
  intro p hp
  cases p with
  | dt | st => simp at hp
  | v | stack | mem | keys => exact fun _ => rfl
  | disp => exact fun _ _ => rfl
  | i | pc | sp | es | cfg | report | draws => rfl

theorem State.changesOnly_withDt {s t : State} (h : ∃ d, t = { s with dt := d }) : ChangesOnly [.dt] s t := by
  obtain ⟨d, rfl⟩ := h
  exact (State.changesOnly_withTimers ⟨d, s.st, rfl⟩).erase (p := .st) rfl

theorem State.changesOnly_withSt {s t : State} (h : ∃ b, t = { s with st := b }) : ChangesOnly [.st] s t := by
  obtain ⟨b, rfl⟩ := h
  exact (State.changesOnly_withTimers ⟨s.dt, b, rfl⟩).of_cons rfl

/-- The sound gate is open while the sound timer counts (R222, R257). -/
theorem State.soundTimerActive_iff (s : State) : s.soundTimerActive = true ↔ s.st ≠ 0 := bne_iff_ne

/-! ### The statement -/

/-- Settles O35: the read writes one register (`exec_setV`); each of the two settings writes its timer alone, and
`State.soundTimerActive_iff` reads the gate off `ST`. -/
theorem timerInstructionsCopy : Obligations.TimerInstructionsCopy :=
  ⟨fun x _ => ⟨decode_encode_supported (.ldVxDt x), exec_setV rfl⟩,
    fun x _ => ⟨decode_encode_supported (.ldDtVx x), _, rfl, rfl, State.changesOnly_withDt ⟨_, rfl⟩⟩,
    fun x _ => ⟨decode_encode_supported (.ldStVx x), _, rfl, rfl, State.soundTimerActive_iff _,
      State.changesOnly_withSt ⟨_, rfl⟩⟩⟩

end Sys2Proof.Machine
end

section
/-!
SUPPORT. `CLS` (spec/47_system.md R240): a blank display, and every other component as it was.
-/

namespace Sys2Proof.Machine

/-- A new display in an otherwise equal state changes no other component. -/
theorem State.changesOnly_withDisp {s t : State} (h : ∃ d, t = { s with disp := d }) : ChangesOnly [.disp] s t := by
  obtain ⟨d, rfl⟩ := h
  intro p hp
  cases p with
  | disp => simp at hp
  | v | stack | mem | keys => exact fun _ => rfl
  | i | pc | sp | dt | st | es | cfg | report | draws => rfl

/-- Settles O38: `CLS` writes `Display.blank`, whose pixels are false (`Display.pixel_blank`), and no other component. -/
theorem clearEmptiesTheDisplay : Obligations.ClearEmptiesTheDisplay := fun _ =>
  ⟨decode_encode_supported .cls, _, rfl, Display.pixel_blank, State.changesOnly_withDisp ⟨_, rfl⟩⟩

end Sys2Proof.Machine
end

section
/-!
SUPPORT. The draw instruction (spec/44_draw.md R210, R211): a sprite of rows that exist toggles the pixels it covers,
and `VF` records a pixel that it unset.
-/

namespace Sys2Proof.Machine

/-! ### The sprite of an instruction -/

/-- What `DRW Vx, Vy, nibble` draws: the display with the sprite's pixels toggled, and whether one of them was set. -/
def State.drawSprite (s : State) (x y n : Nibble) : Canvas :=
  s.disp.draw s.cfg.qClipRows (s.getV x).toNat (s.getV y).toNat (s.mem.readBytes (effAddr s) n.toNat)

/-- The points `draw` plots are the pixels the sprite covers. -/
theorem mem_spritePoints_iff_spriteCovers (s : State) (x y n : Nibble) (py : Fin 32) (px : Fin 64) :
    (py, px) ∈ spritePoints s.cfg.qClipRows ((s.getV x).toNat % 64) ((s.getV y).toNat % 32) 0
        (s.mem.readBytes (effAddr s) n.toNat) ↔
      SpriteCovers s x y n py px := by
  rw [mem_spritePoints]
  simp only [Memory.length_readBytes, Nat.zero_add]
  constructor
  · rintro ⟨r, hr, c, hc, hbit, hclip, hp⟩
    rw [Memory.getElem_readBytes _ _ _ _ hr] at hbit
    obtain ⟨rfl, rfl⟩ := Prod.mk.inj hp
    exact ⟨r, hr, c, hc, hbit, rfl, rfl, hclip⟩
  · rintro ⟨r, hr, c, hc, hbit, hx, hy, hclip⟩
    rw [← Memory.getElem_readBytes _ _ _ _ hr] at hbit
    exact ⟨r, hr, c, hc, hbit, hclip, Prod.ext (Fin.ext hy) (Fin.ext hx)⟩

theorem State.length_spriteRows_le (s : State) (n : Nibble) : (s.mem.readBytes (effAddr s) n.toNat).length ≤ 32 := by
  have := n.isLt
  rw [Memory.length_readBytes]
  omega

theorem State.pixel_drawSprite_of_covers {s : State} {x y n : Nibble} {py : Fin 32} {px : Fin 64}
    (h : SpriteCovers s x y n py px) : (s.drawSprite x y n).disp.pixel py px = !s.disp.pixel py px := by
  rw [State.drawSprite, (Display.draw_spec _ _ _ _ _ (s.length_spriteRows_le n)).1,
    if_pos ((mem_spritePoints_iff_spriteCovers ..).2 h)]

theorem State.pixel_drawSprite_of_not_covers {s : State} {x y n : Nibble} {py : Fin 32} {px : Fin 64}
    (h : ¬ SpriteCovers s x y n py px) : (s.drawSprite x y n).disp.pixel py px = s.disp.pixel py px := by
  rw [State.drawSprite, (Display.draw_spec _ _ _ _ _ (s.length_spriteRows_le n)).1,
    if_neg (mt (mem_spritePoints_iff_spriteCovers ..).1 h)]

/-- A collision is a pixel that went from set to unset: only a covered pixel changes, and a covered one that was set
is unset. -/
theorem State.drawSprite_collided_iff (s : State) (x y n : Nibble) :
    (s.drawSprite x y n).collided = true ↔
      ∃ py px, s.disp.pixel py px = true ∧ (s.drawSprite x y n).disp.pixel py px = false := by
  rw [State.drawSprite, (Display.draw_spec _ _ _ _ _ (s.length_spriteRows_le n)).2, ← State.drawSprite]
  simp only [mem_spritePoints_iff_spriteCovers]
  refine exists_congr fun py => exists_congr fun px => ?_
  by_cases hcov : SpriteCovers s x y n py px
  · simp [hcov, State.pixel_drawSprite_of_covers hcov]
  · simp [hcov, State.pixel_drawSprite_of_not_covers hcov]

/-! ### The instruction -/

/-- A sprite whose rows all exist is drawn; one of no rows at any `I`. -/
theorem exec_drw_of_fits {x y n : Nibble} {s : State} (h : n = 0 ∨ s.i.toNat + n.toNat - 1 ≤ 4095) :
    exec (.drw x y n) s =
      .next (State.setVf { s with disp := (s.drawSprite x y n).disp } (flagByte (s.drawSprite x y n).collided)) := by
  have hrange : inRange (effAddr s) n.toNat = true := by
    refine (inRange_iff ..).2 (h.imp (fun hn => by rw [hn]; rfl) fun hlast => ?_)
    unfold effAddr
    omega
  rw [exec, execDrw, hrange, checked_true]
  rfl

/-- New registers and a new display in an otherwise equal state change no other component. -/
theorem State.changesOnly_withDispV {s t : State} (h : ∃ d vs, t = { s with disp := d, v := vs }) :
    ChangesOnly [.disp, .v] s t := by
  obtain ⟨d, vs, rfl⟩ := h
  intro p hp
  cases p with
  | disp | v => simp at hp
  | stack | mem | keys => exact fun _ => rfl
  | i | pc | sp | dt | st | es | cfg | report | draws => rfl

/-- Settles O33: the pixels by `State.pixel_drawSprite_of_covers` and `State.pixel_drawSprite_of_not_covers`, the flag
by `State.drawSprite_collided_iff`; a row out of range is a cause of the raise (`exec_of_execRaises`). -/
theorem drawTogglesExactlyTheCoveredPixels : Obligations.DrawTogglesExactlyTheCoveredPixels := by
  intro x y n s
  refine ⟨decode_encode_supported (.drw x y n), fun h => ?_, fun ⟨hn, hr⟩ => ?_⟩
  · have hflag := State.getV_setV_same { s with disp := (s.drawSprite x y n).disp } 15
      (flagByte (s.drawSprite x y n).collided)
    have hcollided := s.drawSprite_collided_iff x y n
    refine ⟨_, exec_drw_of_fits h,
      fun _ _ => ⟨State.pixel_drawSprite_of_covers, State.pixel_drawSprite_of_not_covers⟩, fun hunset => ?_,
      fun hnone => ?_, State.regsSameBut_setV _ 15 _, State.changesOnly_withDispV ⟨_, _, rfl⟩⟩
    · exact hflag.trans (congrArg flagByte (hcollided.2 hunset))
    · exact hflag.trans (congrArg flagByte (Bool.eq_false_iff.2 (mt hcollided.1 hnone)))
  · have hpos : 0 < n.toNat := Nat.pos_of_ne_zero fun h0 => hn (BitVec.eq_of_toNat_eq h0)
    exact exec_of_execRaises (.inl ⟨x, y, n, rfl, hpos, hr⟩)

end Sys2Proof.Machine
end

section
/-!
SUPPORT. The halted engine (spec/60_exceptions.md R289): no host operation but `load` leaves `Halted` or reports an
error, and a load of an image that fits resets every component but memory and the configuration (R251).
-/

namespace Sys2Proof.Machine

/-- A halted engine reports no error: its step succeeds, and no other operation but `load` has an error to report. -/
theorem State.apply_halted_ne_error {s t : State} {r : HaltReason} {op : HostOp} {resp : Response}
    (hs : s.es = .halted r) (hload : ∀ image, op ≠ .load image) (h : s.apply op = some (t, resp)) (k : ErrorKind) :
    resp ≠ .error k := by
  cases op with
  | configure cfg => cases h
  | load image => exact absurd rfl (hload image)
  | step =>
    have hresult : stepResult s s = none := by simp only [stepResult, hs]
    have hsuccess := hostStep_eq (step_halted hs)
    rw [hresult] at hsuccess
    cases hsuccess.symm.trans h
    nofun
  | tickTimers | deliverKeyEvent _ _ | shutdown | displaySnapshot | soundTimerActive | isPressed _ | anyPressed =>
    cases h
    nofun

/-- In `Halted` the table of R32 keeps the engine state under every operation but `load`. -/
theorem EngineStateAfter.of_halted {s : State} {r : HaltReason} {op : HostOp} {e : EngineState}
    (h : EngineStateAfter s op e) (hs : s.es = .halted r) (hload : ∀ image, op ≠ .load image) : e = .halted r := by
  cases op with
  | load image => exact absurd rfl (hload image)
  | step | deliverKeyEvent _ _ | shutdown => simpa only [EngineStateAfter, hs] using h
  | configure _ | tickTimers | displaySnapshot | soundTimerActive | isPressed _ | anyPressed => exact h.trans hs

/-- `load` of an image that fits: the reset state with the image in memory (R251). -/
theorem loadImage_of_fits {image : List Byte} (cfg : QuirkConfig) (draws : Nat) (h : image.length ≤ 3584) :
    loadImage cfg draws image =
      { State.resetWith cfg draws with mem := Memory.writeBytes [] Config.loadOffset image } := by
  have hfits : ¬ Config.loadOffset + image.length > Config.memSize := by
    show ¬ 512 + image.length > 4096
    omega
  simp only [loadImage, if_neg hfits]
  rfl

/-- Another memory, configuration and draw counter in an otherwise equal state change no other component. -/
theorem State.changesOnly_withMemCfgDraws {s t : State}
    (h : ∃ m c d, t = { s with mem := m, cfg := c, draws := d }) : ChangesOnly [.mem, .cfg, .draws] s t := by
  obtain ⟨m, c, d, rfl⟩ := h
  intro p hp
  cases p with
  | mem | cfg | draws => simp at hp
  | v | stack | keys => exact fun _ => rfl
  | disp => exact fun _ _ => rfl
  | i | pc | sp | dt | st | es | report => rfl

/-- Settles O43: `step_halted`, the table of R32 (`engineStateAfter_apply`) read in `Halted`, and
`loadImage_of_fits`. -/
theorem haltedIsLeftOnlyByLoad : Obligations.HaltedIsLeftOnlyByLoad := by
  intro s r hs
  refine ⟨step_halted hs, fun op t resp hload h => ?_, fun image hfits => ?_⟩
  · exact ⟨(engineStateAfter_apply h).of_halted hs hload, State.apply_halted_ne_error hs hload h⟩
  · have hreset := loadImage_of_fits s.cfg s.draws hfits
    exact ⟨congrArg State.es hreset, State.changesOnly_withMemCfgDraws ⟨_, _, _, hreset⟩⟩

end Sys2Proof.Machine
end

section
/-!
SUPPORT. The configuration in a session (spec/70_reset_and_hazards.md R331, spec/48_host_operations.md R250, R258): no
operation of a session writes `cfg`; and the first load of a created machine, from the two outcomes of `loadImage`
(R251, R298).
-/

namespace Sys2Proof.Machine

/-! ### The frames of the host operations' writes -/

/-- Another memory, engine state, configuration and draw counter in an otherwise equal state change no other
component. -/
theorem State.changesOnly_withMemEsCfgDraws {s t : State}
    (h : ∃ m e c d, t = { s with mem := m, es := e, cfg := c, draws := d }) :
    ChangesOnly [.mem, .es, .cfg, .draws] s t := by
  obtain ⟨m, e, c, d, rfl⟩ := h
  intro p hp
  cases p with
  | mem | es | cfg | draws => simp at hp
  | v | stack | keys => exact fun _ => rfl
  | disp => exact fun _ _ => rfl
  | i | pc | sp | dt | st | report => rfl

theorem State.changesOnly_withEs {s t : State} (h : ∃ e, t = { s with es := e }) : ChangesOnly [.es] s t := by
  obtain ⟨e, rfl⟩ := h
  have hframe := State.changesOnly_withMemEsCfgDraws (s := s) ⟨s.mem, e, s.cfg, s.draws, rfl⟩
  exact ((hframe.of_cons fun _ => rfl).erase (p := .cfg) rfl).erase (p := .draws) rfl

/-- `shutdown` writes the engine state alone (R258). -/
theorem State.shutdown_eq (s : State) : ∃ e, s.shutdown = { s with es := e } := by
  unfold State.shutdown
  split
  · exact ⟨s.es, rfl⟩
  · exact ⟨_, rfl⟩

/-- The row of `shutdown` in the table of R32, as a value. -/
theorem State.shutdown_es (s : State) :
    s.shutdown.es = match s.es with | .halted r => .halted r | _ => .halted .hostShutdown := by
  have htable := engineStateAfter_shutdown s
  cases hs : s.es with
  | halted _ | running | waitingForKey _ => simpa only [EngineStateAfter, hs] using htable

/-! ### What leaves the configuration alone (R250) -/

theorem Effect.cfg_eq {i : Instr} {s t : State} (h : Effect i s t) : t.cfg = s.cfg := by
  cases i
  case ret => obtain ⟨_, _, rfl⟩ := h; rfl
  case call => obtain ⟨_, rfl⟩ := h; rfl
  case drw => obtain ⟨_, _, rfl⟩ := h; rfl
  case addI | ldF | ldB => obtain ⟨_, rfl⟩ := h; rfl
  case storeRegs => obtain ⟨_, _, rfl⟩ := h; rfl
  case loadRegs => obtain ⟨_, _, rfl, _⟩ := h; rfl
  case seByte | sneByte | seReg | sneReg | skp | sknp => obtain ⟨c, rfl⟩ := h; exact s.skipIf_cfg c
  case addReg x _ | subReg x _ | shr x _ | subnReg x _ | shl x _ =>
    obtain ⟨b, f, rfl⟩ := h; exact s.writeResultAndFlag_cfg x b f
  case ldByte | addByte | ldReg | orReg | andReg | xorReg | ldVxDt => obtain ⟨_, rfl⟩ := h; rfl
  case cls | stop | jp | jpV0 | ldI | rnd | ldVxK | ldDtVx | ldStVx => cases h; rfl

theorem execDecoded_cfg {d : Decoded} {s t : State} (h : execDecoded d s = .next t) : t.cfg = s.cfg := by
  cases d with
  | supported i =>
    rcases exec_effect h with ⟨k, rfl⟩ | heff
    · exact s.raise_cfg k
    · exact heff.cfg_eq
  | unsupported op =>
    rw [execDecoded, execUnsupported_eq] at h
    split at h <;> cases h <;> rfl

theorem step_cfg {s t : State} (h : step s = .next t) : t.cfg = s.cfg := by
  rcases step_cases h with ⟨-, rfl⟩ | ⟨-, -, rfl⟩ | ⟨-, -, hexec⟩
  · rfl
  · exact s.raise_cfg _
  · exact (execDecoded_cfg hexec).trans s.advance_cfg

theorem State.deliverKeyEvent_cfg (s : State) (key : Nibble) (pressed : Bool) :
    (s.deliverKeyEvent key pressed).cfg = s.cfg := by
  unfold State.deliverKeyEvent
  split <;> rfl

theorem State.shutdown_cfg (s : State) : s.shutdown.cfg = s.cfg := by
  obtain ⟨e, h⟩ := s.shutdown_eq
  rw [h]

/-! ### The two outcomes of `load` (R251, R298) -/

/-- `load` of an image that does not fit: the reset state, halted (R298). -/
theorem loadImage_of_tooLong {image : List Byte} (cfg : QuirkConfig) (draws : Nat) (h : 3584 < image.length) :
    loadImage cfg draws image = (State.resetWith cfg draws).raise .loadError := by
  have hlong : Config.loadOffset + image.length > Config.memSize := by
    show 512 + image.length > 4096
    omega
  simp only [loadImage, if_pos hlong]

/-- In either outcome `load` leaves the reset state but for memory and the engine state. -/
theorem loadImage_eq (cfg : QuirkConfig) (draws : Nat) (image : List Byte) :
    ∃ m e, loadImage cfg draws image = { State.resetWith cfg draws with mem := m, es := e } := by
  rcases Nat.lt_or_ge 3584 image.length with hlong | hfits
  · exact ⟨_, _, loadImage_of_tooLong cfg draws hlong⟩
  · exact ⟨_, .running, loadImage_of_fits cfg draws hfits⟩

theorem loadImage_cfg (cfg : QuirkConfig) (draws : Nat) (image : List Byte) :
    (loadImage cfg draws image).cfg = cfg := by
  obtain ⟨m, e, h⟩ := loadImage_eq cfg draws image
  rw [h]
  rfl

theorem loadImage_pc (cfg : QuirkConfig) (draws : Nat) (image : List Byte) :
    (loadImage cfg draws image).pc = 0x200 := by
  obtain ⟨m, e, h⟩ := loadImage_eq cfg draws image
  rw [h]
  rfl

theorem loadImage_draws (cfg : QuirkConfig) (draws : Nat) (image : List Byte) :
    (loadImage cfg draws image).draws = draws := by
  obtain ⟨m, e, h⟩ := loadImage_eq cfg draws image
  rw [h]
  rfl

/-- Against the reset state of a machine never configured, a load changes four components at most (R330). -/
theorem changesOnly_loadImage (cfg : QuirkConfig) (draws : Nat) (image : List Byte) :
    ChangesOnly [.mem, .es, .cfg, .draws] State.reset (loadImage cfg draws image) := by
  obtain ⟨m, e, h⟩ := loadImage_eq cfg draws image
  exact State.changesOnly_withMemEsCfgDraws ⟨m, e, cfg, draws, h⟩

theorem loadImage_mem_of_fits {image : List Byte} (cfg : QuirkConfig) (draws : Nat) (h : image.length ≤ 3584) :
    (loadImage cfg draws image).mem = State.reset.mem.writeBytes 0x200 image := by
  rw [loadImage_of_fits cfg draws h]
  rfl

theorem loadImage_mem_of_tooLong {image : List Byte} (cfg : QuirkConfig) (draws : Nat) (h : 3584 < image.length) :
    (loadImage cfg draws image).mem = State.reset.mem := by
  rw [loadImage_of_tooLong cfg draws h]
  rfl

/-- `load` reports an error exactly when the image does not fit. -/
theorem loadResult_loadImage (cfg : QuirkConfig) (draws : Nat) (image : List Byte) :
    loadResult (loadImage cfg draws image) = if 3584 < image.length then .error .loadError else .success := by
  unfold loadResult
  rw [loadImage_es]
  by_cases hlong : 3584 < image.length
  · simp only [if_pos hlong, if_true]
  · simp only [if_neg hlong, reduceCtorEq, if_false]

/-! ### The operations of a session and of a created machine (R250, R331) -/

theorem State.apply_cfg {s t : State} {op : HostOp} {r : Response} (h : s.apply op = some (t, r)) :
    t.cfg = s.cfg := by
  cases op with
  | configure cfg => cases h
  | load image => cases h; exact loadImage_cfg s.cfg s.draws image
  | step => exact step_cfg (step_of_hostStep h)
  | tickTimers => cases h; exact s.tickTimers_cfg
  | deliverKeyEvent key pressed => cases h; exact s.deliverKeyEvent_cfg key pressed
  | shutdown => cases h; exact s.shutdown_cfg
  | displaySnapshot | soundTimerActive | isPressed key | anyPressed => cases h; rfl

/-- Before the first load no operation but `configure` and `load` has a move (R331). -/
theorem Instance.apply_created_eq_none (cfg : QuirkConfig) {op : HostOp} (hconfigure : ∀ c, op ≠ .configure c)
    (hload : ∀ image, op ≠ .load image) : Instance.apply (.created cfg) op = none := by
  cases op with
  | configure c => exact absurd rfl (hconfigure c)
  | load image => exact absurd rfl (hload image)
  | step | tickTimers | deliverKeyEvent _ _ | shutdown => rfl
  | displaySnapshot | soundTimerActive | isPressed _ | anyPressed => rfl

/-! ### The statements -/

/-- Settles O56: `State.apply_cfg` for the session, `loadImage_cfg` for its start, and `State.shutdown_eq` for the
frame of a shutdown. -/
theorem configurationIsImmutableInASession : Obligations.ConfigurationIsImmutableInASession :=
  ⟨fun _ _ => rfl, fun cfg _ => Instance.apply_created_eq_none cfg,
    fun cfg image => ⟨_, _, rfl, loadImage_cfg cfg 0 image⟩, fun _ _ => rfl, fun _ _ _ _ => State.apply_cfg,
    fun s => ⟨State.changesOnly_withEs s.shutdown_eq, s.shutdown_es⟩⟩

/-- Settles O59: the state is `loadImage`'s at draw counter 0, so that the counter too has its reset value; an image
that fits is written over the reset memory, a longer one leaves it. -/
theorem firstLoadStartsTheSession : Obligations.FirstLoadStartsTheSession := by
  intro cfg image
  have hframe : ChangesOnly [.mem, .es, .cfg] State.reset (loadImage cfg 0 image) :=
    (changesOnly_loadImage cfg 0 image).erase (p := .draws) (loadImage_draws cfg 0 image)
  have hresult := loadResult_loadImage cfg 0 image
  have hes := loadImage_es cfg 0 image
  refine ⟨_, _, rfl, loadImage_cfg cfg 0 image, loadImage_pc cfg 0 image, hframe, fun hfits => ?_, fun hlong => ?_⟩
  · have hmem := loadImage_mem_of_fits cfg 0 hfits
    have hbound : 0x200 + image.length ≤ 4096 := by omega
    rw [if_neg (Nat.not_lt.2 hfits)] at hresult hes
    refine ⟨hresult, hes, fun k hk => ?_, memSameBut_of_writeBytes rfl hbound hmem⟩
    rw [hmem]
    exact Memory.read_writeBytes_add _ rfl hbound hk
  · rw [if_pos hlong] at hresult hes
    exact ⟨hresult, hes, fun a => congrArg (·.read a) (loadImage_mem_of_tooLong cfg 0 hlong)⟩

end Sys2Proof.Machine
end

section
/-!
SUPPORT. The decoder and the encoder as inverses, and the opcode table as exactly the words that decode
(spec/30_encoding.md R94, R95, R97): a word is put together from its fields, and a row of the table fixes the fields
that select its arm.
-/

namespace Sys2Proof.Machine

/-! ### A decoded word is its instruction's encoding (R97) -/

/-- A word of category `c` in format `NNN`. -/
theorem encodeNNN_of_fieldC {op : Opcode} {c : Nibble} (hc : fieldC op = c) : encodeNNN c (fieldNNN op) = op :=
  hc ▸ encodeNNN_fields op

/-- A word of category `c` in format `XNN`. -/
theorem encodeXNN_of_fieldC {op : Opcode} {c : Nibble} (hc : fieldC op = c) :
    encodeXNN c (fieldX op) (fieldNN op) = op :=
  hc ▸ encodeXNN_fields op

/-- A word of category `c` in formats `XYK` and `XYN`. -/
theorem encodeXYN_of_fieldC {op : Opcode} {c n : Nibble} (hc : fieldC op = c) (hn : fieldN op = n) :
    encodeXYN c (fieldX op) (fieldY op) n = op :=
  hc ▸ hn ▸ encodeXYN_fields op

theorem encode_of_decodeSystem {op : Opcode} {i : Instr} (h : decodeSystem op = .supported i) : encode i = op := by
  unfold decodeSystem at h
  split_ifs at h with hcls hret hstop <;> cases h
  · exact hcls.symm
  · exact hret.symm
  · exact hstop.symm

theorem encode_of_decodeArith {op : Opcode} {i : Instr} (hc : fieldC op = 0x8)
    (h : decodeArith op = .supported i) : encode i = op := by
  unfold decodeArith at h
  dsimp only at h
  split at h <;> cases h
  all_goals exact encodeXYN_of_fieldC hc ‹_›

/-- A word of category `c` whose low byte selects the instruction. -/
theorem encodeXNN_of_fields {op : Opcode} {c : Nibble} {nn : Byte} (hc : fieldC op = c) (hn : fieldNN op = nn) :
    encodeXNN c (fieldX op) nn = op :=
  hn ▸ encodeXNN_of_fieldC hc

theorem encode_of_decodeKey {op : Opcode} {i : Instr} (hc : fieldC op = 0xE)
    (h : decodeKey op = .supported i) : encode i = op := by
  unfold decodeKey at h
  split at h <;> cases h
  all_goals exact encodeXNN_of_fields hc ‹_›

theorem encode_of_decodeMisc {op : Opcode} {i : Instr} (hc : fieldC op = 0xF)
    (h : decodeMisc op = .supported i) : encode i = op := by
  unfold decodeMisc at h
  dsimp only at h
  split at h <;> cases h
  all_goals exact encodeXNN_of_fields hc ‹_›

theorem encode_of_decode {op : Opcode} {i : Instr} (h : decode op = .supported i) : encode i = op := by
  unfold decode at h
  dsimp only at h
  split at h
  -- categories 0, 8, E and F select further
  case h_1 => exact encode_of_decodeSystem h
  case h_9 hc => exact encode_of_decodeArith hc h
  case h_15 hc => exact encode_of_decodeKey hc h
  case h_16 =>
    refine encode_of_decodeMisc ?_ h
    clear h
    generalize fieldC op = c at *
    revert c
    decide
  -- 5XY0 and 9XY0
  case h_6 hc | h_10 hc =>
    split_ifs at h with hn
    cases h
    exact encodeXYN_of_fieldC hc hn
  -- DXYN
  case h_14 hc => cases h; exact encodeXYN_of_fieldC hc rfl
  -- 1NNN, 2NNN, ANNN and BNNN
  case h_2 hc | h_3 hc | h_11 hc | h_12 hc => cases h; exact encodeNNN_of_fieldC hc
  -- 3XNN, 4XNN, 6XNN, 7XNN and CXNN
  case h_4 hc | h_5 hc | h_7 hc | h_8 hc | h_13 hc => cases h; exact encodeXNN_of_fieldC hc

/-! ### Unsupported words (R94, R97) -/

/-- An unsupported word is reported as itself. -/
theorem eq_of_decode_unsupported {op op' : Opcode} (h : decode op = .unsupported op') : op' = op := by
  unfold decode decodeSystem decodeArith decodeKey decodeMisc at h
  dsimp only at h
  repeat' split at h
  all_goals cases h
  all_goals rfl

/-! ### The rows of the table (R92, R95) -/

theorem fieldC_and (op mask : Opcode) : fieldC (op &&& mask) = fieldC op &&& fieldC mask := BitVec.extractLsb'_and

theorem fieldN_and (op mask : Opcode) : fieldN (op &&& mask) = fieldN op &&& fieldN mask := BitVec.extractLsb'_and

theorem fieldNN_and (op mask : Opcode) : fieldNN (op &&& mask) = fieldNN op &&& fieldNN mask := BitVec.extractLsb'_and

/-- A row that fixes the category alone. -/
theorem fieldC_of_accepts {p op : Opcode} (h : OpcodeRow.accepts ⟨0xF000, p⟩ op = true) : fieldC op = fieldC p := by
  have hp : op &&& 0xF000 = p := beq_iff_eq.1 h
  rw [← hp, fieldC_and]
  exact (and_ones _).symm

/-- A row that fixes the category and the low nibble. -/
theorem fieldC_fieldN_of_accepts {p op : Opcode} (h : OpcodeRow.accepts ⟨0xF00F, p⟩ op = true) :
    fieldC op = fieldC p ∧ fieldN op = fieldN p := by
  have hp : op &&& 0xF00F = p := beq_iff_eq.1 h
  rw [← hp, fieldC_and, fieldN_and]
  exact ⟨(and_ones _).symm, (and_ones _).symm⟩

/-- A row that fixes the category and the low byte. -/
theorem fieldC_fieldNN_of_accepts {p op : Opcode} (h : OpcodeRow.accepts ⟨0xF0FF, p⟩ op = true) :
    fieldC op = fieldC p ∧ fieldNN op = fieldNN p := by
  have hp : op &&& 0xF0FF = p := beq_iff_eq.1 h
  rw [← hp, fieldC_and, fieldNN_and]
  exact ⟨(and_ones _).symm, BitVec.and_allOnes.symm⟩

/-- A word of an instruction's row decodes to some instruction. -/
theorem decode_of_accepts {i : Instr} {op : Opcode} (h : i.row.accepts op = true) :
    ∃ j, decode op = .supported j := by
  cases i
  case cls | ret | stop =>
    have hop : op = _ := BitVec.and_allOnes.symm.trans (beq_iff_eq.1 h)
    rw [hop]
    exact ⟨_, rfl⟩
  case seReg | sneReg | ldReg | orReg | andReg | xorReg | addReg | subReg | shr | subnReg | shl =>
    obtain ⟨hc, hn⟩ := fieldC_fieldN_of_accepts h
    simp only [decode, decodeArith, hc, hn]
    exact ⟨_, rfl⟩
  case skp | sknp | ldVxDt | ldVxK | ldDtVx | ldStVx | addI | ldF | ldB | storeRegs | loadRegs =>
    obtain ⟨hc, hnn⟩ := fieldC_fieldNN_of_accepts h
    simp only [decode, decodeKey, decodeMisc, hc, hnn]
    exact ⟨_, rfl⟩
  all_goals
    simp only [decode, fieldC_of_accepts h]
    exact ⟨_, rfl⟩

/-- One instruction of every row, in the table's order. -/
def rowInstrs : List Instr :=
  [.cls, .ret, .stop, .jp 0, .call 0, .seByte 0 0, .sneByte 0 0, .seReg 0 0, .ldByte 0 0, .addByte 0 0, .ldReg 0 0,
    .orReg 0 0, .andReg 0 0, .xorReg 0 0, .addReg 0 0, .subReg 0 0, .shr 0 0, .subnReg 0 0, .shl 0 0, .sneReg 0 0,
    .ldI 0, .jpV0 0, .rnd 0 0, .drw 0 0 0, .skp 0, .sknp 0, .ldVxDt 0, .ldVxK 0, .ldDtVx 0, .ldStVx 0, .addI 0, .ldF 0,
    .ldB 0, .storeRegs 0, .loadRegs 0]

theorem opcodeTable_eq : opcodeTable = rowInstrs.map Instr.row := rfl

open Laws.EncodedInRow in
/-- Every instruction is encoded in its row, from the statement per instruction. -/
theorem encodedInRow (i : Instr) : Statement i :=
  match i with
  | .cls => cls | .ret => ret | .stop => stop
  | .jp nnn => jp nnn | .call nnn => call nnn | .ldI nnn => ldI nnn | .jpV0 nnn => jpV0 nnn
  | .seByte x nn => seByte x nn | .sneByte x nn => sneByte x nn
  | .ldByte x nn => ldByte x nn | .addByte x nn => addByte x nn | .rnd x nn => rnd x nn
  | .seReg x y => seReg x y | .sneReg x y => sneReg x y | .ldReg x y => ldReg x y | .orReg x y => orReg x y
  | .andReg x y => andReg x y | .xorReg x y => xorReg x y | .addReg x y => addReg x y | .subReg x y => subReg x y
  | .shr x y => shr x y | .subnReg x y => subnReg x y | .shl x y => shl x y | .drw x y n => drw x y n
  | .skp x => skp x | .sknp x => sknp x | .ldVxDt x => ldVxDt x | .ldVxK x => ldVxK x | .ldDtVx x => ldDtVx x
  | .ldStVx x => ldStVx x | .addI x => addI x | .ldF x => ldF x | .ldB x => ldB x | .storeRegs x => storeRegs x
  | .loadRegs x => loadRegs x

theorem supportedWord_encode (i : Instr) : supportedWord (encode i) = true :=
  List.any_eq_true.2 ⟨i.row, encodedInRow i⟩

/-- The words that decode to an instruction are those of the table (R94, R97). -/
theorem decode_supported_iff (op : Opcode) : (∃ i, decode op = .supported i) ↔ supportedWord op = true := by
  constructor
  · rintro ⟨i, h⟩
    rw [← encode_of_decode h]
    exact supportedWord_encode i
  · intro h
    obtain ⟨r, hr, hop⟩ := List.any_eq_true.1 h
    rw [opcodeTable_eq] at hr
    obtain ⟨i, -, rfl⟩ := List.mem_map.1 hr
    exact decode_of_accepts hop

theorem decode_unsupported_iff (op : Opcode) : decode op = .unsupported op ↔ supportedWord op = false := by
  rw [← Bool.not_eq_true, ← decode_supported_iff]
  cases hd : decode op with
  | supported i => simp
  | unsupported op' => simp [eq_of_decode_unsupported hd]

/-- Two disjoint rows: at a bit that both fix, a word of both would have two values. -/
theorem OpcodeRow.not_accepts_both {r t : OpcodeRow} (h : r.disjoint t = true) (op : Opcode) :
    ¬ (r.accepts op = true ∧ t.accepts op = true) := by
  rintro ⟨hr, ht⟩
  refine bne_iff_ne.1 h ?_
  rw [← beq_iff_eq.1 hr, ← beq_iff_eq.1 ht]
  ext k
  simp only [BitVec.getElem_and, BitVec.getElem_xor, BitVec.ofNat_eq_ofNat, BitVec.getElem_zero]
  cases op[k] <;> cases r.mask[k] <;> cases t.mask[k] <;> rfl

/-! ### The statements -/

/-- Settles O1: by the format of each instruction (`decode_encode_supported`). -/
theorem decodeOfEncodeIsTheInstruction : Obligations.DecodeOfEncodeIsTheInstruction := decode_encode_supported

/-- Settles O2: each arm of the decoder reads its operands out of the fields that the encoder puts together. -/
theorem encodeOfDecodeIsTheWord : Obligations.EncodeOfDecodeIsTheWord := fun _ _ => encode_of_decode

/-- Settles O3: the supported words are those of the table, and an unsupported word is reported as itself. -/
theorem unsupportedIsExactlyOutsideTheTable : Obligations.UnsupportedIsExactlyOutsideTheTable := fun op =>
  ⟨decode_unsupported_iff op, fun _ => eq_of_decode_unsupported⟩

/-- Settles O4: each two rows fix some bit differently. -/
theorem tableRowsShareNoWord : Obligations.TableRowsShareNoWord := by
  refine ⟨rfl, ?_⟩
  have hdisjoint : opcodeTable.Pairwise fun r t => r.disjoint t = true := by decide
  exact hdisjoint.imp fun h => OpcodeRow.not_accepts_both h

/-- Settles O5: the words are fixed, so the decoder is evaluated on each. -/
theorem wordsOfTheSpecDecodeAsPrinted : Obligations.WordsOfTheSpecDecodeAsPrinted := by
  unfold Obligations.WordsOfTheSpecDecodeAsPrinted
  decide

end Sys2Proof.Machine
end

section
/-!
SUPPORT. What a cycle that raises leaves (spec/60_exceptions.md R281, R282, R288): the state with `es` alone changed,
and `pc` advanced when the fetch succeeded.
-/

namespace Sys2Proof.Machine

/-- A step of an engine that does not run has nothing to report (R125). -/
theorem stepResult_of_not_running {s : State} (t : State) (hs : s.es ≠ .running) : stepResult s t = none := by
  cases hr : stepResult s t with
  | none => rfl
  | some k => exact absurd (stepResult_eq_some.1 hr).1 hs

/-- A step that changes nothing returns success when the engine does not run. -/
theorem State.hostStep_idle {s : State} (h : step s = .next s) (hs : s.es ≠ .running) :
    s.hostStep = some (s, .success) := by
  rw [hostStep_eq h, stepResult_of_not_running s hs]
  rfl

/-- The state a raising cycle leaves, from its cause: the fetch, or the execute stage with `pc` advanced. -/
theorem step_eq_raise {s : State} {k : ErrorKind} (hs : s.es = .running) (h : CycleRaises s k) :
    step s = .next { s with es := .halted (.error k), pc := if s.pc.toNat ≤ 4094 then s.pc + 2 else s.pc } := by
  rcases h with ⟨rfl, hpc⟩ | ⟨hpc, hexec⟩
  · rw [if_neg (by omega)]
    exact step_fetchFails hs hpc
  · have hadv : ExecRaises s.advance (decode s.fetchWord) k := by cases k <;> exact hexec
    rw [if_pos hpc]
    exact (step_running hs hpc).trans (execDecoded_of_execRaises hadv)

/-! ### The statements -/

/-- Settles O9: `step_answersNext` and `exec_answersNext`. -/
theorem everyStepAnswersANextState : Obligations.EveryStepAnswersANextState := ⟨step_answersNext, exec_answersNext⟩

/-- Settles O8: the three shapes of a step without an execute stage. -/
theorem stepWithoutAFetch : Obligations.StepWithoutAFetch := fun _ =>
  ⟨fun hs hpc => ⟨_, step_fetchFails hs hpc, rfl⟩,
    fun x hs => ⟨step_waiting hs, State.hostStep_idle (step_waiting hs) (by simp [hs])⟩,
    fun r hs => ⟨step_halted hs, State.hostStep_idle (step_halted hs) (by simp [hs])⟩⟩

/-- Settles O41: the table of causes decides the engine state (`cycleRaises_iff_halted`), which is one. -/
theorem cycleRaisesExactlyByTheTable : Obligations.CycleRaisesExactlyByTheTable := by
  intro s k hs
  obtain ⟨t, ht⟩ := step_answersNext s
  have hiff := cycleRaises_iff_halted hs ht
  constructor
  · constructor
    · rintro ⟨u, hu, hes⟩
      exact (cycleRaises_iff_halted hs hu k).2 hes
    · exact fun h => ⟨t, ht, (hiff k).1 h⟩
  · intro k' h h'
    simpa using ((hiff k).1 h).symm.trans ((hiff k').1 h')

/-- Settles O42: the cycle met the condition of `k`, and `step_eq_raise` is the state that leaves. -/
theorem raisingCycleWritesNothingElse : Obligations.RaisingCycleWritesNothingElse := by
  intro s t k hs ht hes
  have hraise := step_eq_raise hs ((cycleRaises_iff_halted hs ht k).2 hes)
  exact Host.Outcome.next.inj (ht.symm.trans hraise)

end Sys2Proof.Machine
end

section
/-!
SUPPORT. An unsupported opcode (spec/47_system.md R242): fatal under `strict`, else reported with its address.
-/

namespace Sys2Proof.Machine

/-- A new `pc` and report in an otherwise equal state change no other component. -/
theorem State.changesOnly_withPcReport {s t : State} (h : ∃ a r, t = { s with pc := a, report := r }) :
    ChangesOnly [.pc, .report] s t := by
  obtain ⟨a, r, rfl⟩ := h
  intro p hp
  cases p with
  | pc | report => simp at hp
  | v | stack | mem | keys => exact fun _ => rfl
  | disp => exact fun _ _ => rfl
  | i | sp | dt | st | es | cfg | draws => rfl

/-- Settles O40: a word outside the table decodes to `Unsupported` (`decode_unsupported_iff`); the address in the report
is the advanced `pc` less 2. -/
theorem unsupportedOpcodeIsFatalOrReported : Obligations.UnsupportedOpcodeIsFatalOrReported := by
  intro s hs hpc hword
  have hstep : step s = execUnsupported s.fetchWord s.advance := by
    rw [step_running hs hpc, (decode_unsupported_iff _).2 hword, execDecoded]
  rw [execUnsupported_eq] at hstep
  refine ⟨fun hstrict => ⟨_, hstep.trans (congrArg _ (if_pos hstrict)), rfl⟩, fun hrelaxed => ?_⟩
  have hlax : ¬ s.advance.cfg.strict = true := by simp [hrelaxed]
  refine ⟨_, hstep.trans (congrArg _ (if_neg hlax)), rfl, ?_, State.changesOnly_withPcReport ⟨_, _, rfl⟩⟩
  simp only [State.advance_report, State.advance_pc, BitVec.add_sub_cancel]

end Sys2Proof.Machine
end

section
/-!
SUPPORT. The components an instruction may write (spec/10_state.md R20, column written by): each effect is the write of
a few named components, whose frames are stated once, and a raise writes `es` alone, in the instructions that can
raise. From it the rule of the flag register (R22).
-/

namespace Sys2Proof.Machine

/-- Another register file and draw counter in an otherwise equal state change no other component. -/
theorem State.changesOnly_withVDraws {s t : State} (h : ∃ vs n, t = { s with v := vs, draws := n }) :
    ChangesOnly [.v, .draws] s t := by
  obtain ⟨vs, n, rfl⟩ := h
  intro p hp
  cases p with
  | v | draws => simp at hp
  | stack | mem | keys => exact fun _ => rfl
  | disp => exact fun _ _ => rfl
  | i | pc | sp | dt | st | es | cfg | report => rfl

/-- A raise changes `es` alone (R281). -/
theorem State.changesOnly_raise (s : State) (k : ErrorKind) : ChangesOnly [.es] s (s.raise k) :=
  State.changesOnly_withEs ⟨_, rfl⟩

/-- An instruction that is not listed as writing `es` leaves it alone: it cannot raise. -/
theorem exec_es {i : Instr} {s t : State} (h : exec i s = .next t) (hw : mayWrite i .es = false) : t.es = s.es := by
  cases i
  case ret | stop | call | drw | ldVxK | ldB | storeRegs | loadRegs => simp [mayWrite] at hw
  case seByte | sneByte | seReg | sneReg | skp | sknp => cases h; exact s.skipIf_es _
  case addReg | subReg | shr | subnReg | shl => cases h; exact s.writeResultAndFlag_es _ _ _
  all_goals cases h; rfl

/-- The components an effect writes are among those listed for the instruction. -/
theorem Effect.changesOnly {i : Instr} {s t : State} (h : Effect i s t) :
    ∃ ps, ChangesOnly ps s t ∧ ∀ p ∈ ps, mayWrite i p = true := by
  cases i
  case cls => exact ⟨_, State.changesOnly_withDisp ⟨_, h⟩, by simp [mayWrite]⟩
  case stop | ldVxK => exact ⟨_, State.changesOnly_withEs ⟨_, h⟩, by simp [mayWrite]⟩
  case jp | jpV0 => exact ⟨_, State.changesOnly_withPc ⟨_, h⟩, by simp [mayWrite]⟩
  case ldI => exact ⟨_, State.changesOnly_withI ⟨_, h⟩, by simp [mayWrite]⟩
  case ldDtVx => exact ⟨_, State.changesOnly_withDt ⟨_, h⟩, by simp [mayWrite]⟩
  case ldStVx => exact ⟨_, State.changesOnly_withSt ⟨_, h⟩, by simp [mayWrite]⟩
  case rnd => exact ⟨_, State.changesOnly_withVDraws (s := s) ⟨_, _, h⟩, by simp [mayWrite]⟩
  case ret => obtain ⟨_, _, h⟩ := h; exact ⟨_, State.changesOnly_withSpPc ⟨_, _, h⟩, by simp [mayWrite]⟩
  case call => obtain ⟨_, h⟩ := h; exact ⟨_, State.changesOnly_withControl ⟨_, _, _, h⟩, by simp [mayWrite]⟩
  case seByte | sneByte | seReg | sneReg | skp | sknp =>
    obtain ⟨c, rfl⟩ := h
    exact ⟨_, State.changesOnly_withPc (s.skipIf_eq c), by simp [mayWrite]⟩
  case ldByte | addByte | ldReg | orReg | andReg | xorReg | ldVxDt =>
    obtain ⟨_, h⟩ := h
    exact ⟨_, State.changesOnly_withV ⟨_, h⟩, by simp [mayWrite]⟩
  case addReg x _ | subReg x _ | shr x _ | subnReg x _ | shl x _ =>
    obtain ⟨b, f, rfl⟩ := h
    exact ⟨_, State.changesOnly_withV (s.writeResultAndFlag_eq x b f), by simp [mayWrite]⟩
  case addI | ldF => obtain ⟨_, h⟩ := h; exact ⟨_, State.changesOnly_withI ⟨_, h⟩, by simp [mayWrite]⟩
  case drw => obtain ⟨_, _, h⟩ := h; exact ⟨_, State.changesOnly_withDispV (s := s) ⟨_, _, h⟩, by simp [mayWrite]⟩
  case ldB => obtain ⟨_, h⟩ := h; exact ⟨_, State.changesOnly_withMem ⟨_, h⟩, by simp [mayWrite]⟩
  case storeRegs => obtain ⟨_, _, h⟩ := h; exact ⟨_, State.changesOnly_withMemI ⟨_, _, h⟩, by simp [mayWrite]⟩
  case loadRegs => obtain ⟨_, _, h, -⟩ := h; exact ⟨_, State.changesOnly_withVI ⟨_, _, h⟩, by simp [mayWrite]⟩

theorem Effect.same {i : Instr} {s t : State} {p : Part} (h : Effect i s t) (hw : mayWrite i p = false) :
    p.Same s t := by
  obtain ⟨ps, hframe, hlisted⟩ := h.changesOnly
  exact hframe p fun hp => Bool.false_ne_true (hw.symm.trans (hlisted p hp))

/-- Settles O45: an effect by its frame (`Effect.same`); a raise writes `es` alone, and an instruction that is not
listed as writing `es` does not raise (`exec_es`). -/
theorem instructionsWriteOnlyTheirParts : Obligations.InstructionsWriteOnlyTheirParts := by
  intro i s t p h hw
  rcases exec_effect h with ⟨k, ht⟩ | heff
  · by_cases hp : p = .es
    · subst hp
      exact exec_es h hw
    · exact ht ▸ s.changesOnly_raise k p (by simpa using hp)
  · exact heff.same hw

/-! ### The flag register (R22) -/

theorem flagByte_eq (f : Bool) : flagByte f = 0 ∨ flagByte f = 1 := by cases f <;> simp [flagByte]

/-- An effect with another destination than `V[15]` leaves `VF` alone, but for the six flag writers. -/
theorem Effect.getV_flagReg {i : Instr} {s t : State} (h : Effect i s t) (hdest : hasDest i 15 = false)
    (hflag : writesFlag i = false) : t.getV 15 = s.getV 15 := by
  by_cases hw : mayWrite i .v = false
  · exact h.same hw 15
  cases i
  case ldByte | addByte | ldReg | orReg | andReg | xorReg | ldVxDt =>
    obtain ⟨b, rfl⟩ := h
    exact s.getV_setV_ne b (by simpa [hasDest] using hdest)
  case rnd =>
    cases h
    exact State.getV_setV_ne _ _ (by simpa [hasDest] using hdest)
  case loadRegs =>
    obtain ⟨_, _, -, hrest⟩ := h
    exact hrest 15 (by simpa [hasDest] using hdest)
  case addReg | subReg | shr | subnReg | shl | drw => cases hflag
  all_goals simp [mayWrite] at hw

/-- The flag an effect of the six leaves when `V[15]` is not its destination. -/
theorem Effect.getV_flagReg_of_writesFlag {i : Instr} {s t : State} (h : Effect i s t) (hdest : hasDest i 15 = false)
    (hflag : writesFlag i = true) : ∃ f, t.getV 15 = flagByte f := by
  cases i
  case addReg x _ | subReg x _ | shr x _ | subnReg x _ | shl x _ =>
    obtain ⟨b, f, rfl⟩ := h
    have hx : 15 ≠ x := by simpa [hasDest] using hdest
    exact ⟨f, by rw [s.getV_writeResultAndFlag x 15 b f hx.symm, if_neg hx, if_pos rfl]⟩
  case drw =>
    obtain ⟨d, f, rfl⟩ := h
    exact ⟨f, State.getV_setV_same _ _ _⟩
  all_goals cases hflag

/-- Settles O17: a raise leaves the registers alone, and an effect by the two lemmas on the flag. -/
theorem onlySixInstructionsTouchTheFlag : Obligations.OnlySixInstructionsTouchTheFlag := by
  intro i s t h hdest
  rcases exec_effect h with ⟨k, rfl⟩ | heff
  · exact ⟨fun _ => rfl, fun _ _ hes => nomatch hes⟩
  · refine ⟨heff.getV_flagReg hdest, fun hflag _ _ => ?_⟩
    obtain ⟨f, hf⟩ := heff.getV_flagReg_of_writesFlag hdest hflag
    exact hf ▸ flagByte_eq f

end Sys2Proof.Machine
end

section
/-!
SUPPORT. The invariants of a step: the canonical form of memory (spec/20_memory.md R60, R61), and the bound and the
evenness of `pc` and of the return addresses (spec/10_state.md R24, spec/70_reset_and_hazards.md R334).
-/

namespace Sys2Proof.Machine

/-- What an execute stage can leave: a raise, the effect of its instruction, or a longer report. -/
theorem execDecoded_cases {d : Decoded} {s t : State} (h : execDecoded d s = .next t) :
    (∃ k, t = s.raise k) ∨ (∃ i, d = .supported i ∧ Effect i s t) ∨ ∃ r, t = { s with report := r } := by
  cases d with
  | supported i => exact (exec_effect h).imp_right fun heff => .inl ⟨i, rfl, heff⟩
  | unsupported op =>
    rw [execDecoded, execUnsupported_eq] at h
    split at h <;> cases h
    · exact .inl ⟨_, rfl⟩
    · exact .inr (.inr ⟨_, rfl⟩)

/-! ### Memory -/

/-- An effect leaves memory as it is, or stores bytes in it. -/
theorem Effect.mem_eq {i : Instr} {s t : State} (h : Effect i s t) :
    t.mem = s.mem ∨ ∃ a bytes, t.mem = s.mem.writeBytes a bytes := by
  cases i
  case ldB => obtain ⟨bytes, rfl⟩ := h; exact .inr ⟨_, bytes, rfl⟩
  case storeRegs => obtain ⟨bytes, _, rfl⟩ := h; exact .inr ⟨_, bytes, rfl⟩
  case ret => obtain ⟨_, _, rfl⟩ := h; exact .inl rfl
  case call => obtain ⟨_, rfl⟩ := h; exact .inl rfl
  case drw => obtain ⟨_, _, rfl⟩ := h; exact .inl rfl
  case addI | ldF => obtain ⟨_, rfl⟩ := h; exact .inl rfl
  case loadRegs => obtain ⟨_, _, rfl, _⟩ := h; exact .inl rfl
  case seByte | sneByte | seReg | sneReg | skp | sknp => obtain ⟨c, rfl⟩ := h; exact .inl (s.skipIf_mem c)
  case addReg x _ | subReg x _ | shr x _ | subnReg x _ | shl x _ =>
    obtain ⟨b, f, rfl⟩ := h; exact .inl (s.writeResultAndFlag_mem x b f)
  case ldByte | addByte | ldReg | orReg | andReg | xorReg | ldVxDt => obtain ⟨_, rfl⟩ := h; exact .inl rfl
  case cls | stop | jp | jpV0 | ldI | rnd | ldVxK | ldDtVx | ldStVx => cases h; exact .inl rfl

/-- An execute stage leaves memory as it is, or stores bytes in it. -/
theorem execDecoded_mem {d : Decoded} {s t : State} (h : execDecoded d s = .next t) :
    t.mem = s.mem ∨ ∃ a bytes, t.mem = s.mem.writeBytes a bytes := by
  rcases execDecoded_cases h with ⟨k, rfl⟩ | ⟨i, -, heff⟩ | ⟨r, rfl⟩
  · exact .inl rfl
  · exact heff.mem_eq
  · exact .inl rfl

/-- Settles O46: a store keeps the canonical form (`Memory.wf_writeBytes`), and nothing else writes memory. -/
theorem stepKeepsMemoryCanonical : Obligations.StepKeepsMemoryCanonical := by
  intro s t hs h
  rcases step_cases h with ⟨-, rfl⟩ | ⟨-, -, rfl⟩ | ⟨-, -, hexec⟩
  · exact hs
  · exact hs
  · unfold State.MemCanonical
    rcases execDecoded_mem hexec with hmem | ⟨a, bytes, hmem⟩
    · rw [hmem]; exact hs
    · rw [hmem]; exact Memory.wf_writeBytes a bytes hs

/-! ### The flow of control -/

/-- The instructions that send control to a target: the jumps, `CALL` and `RET` (R171 to R173, R178). -/
def setsPc : Instr → Bool
  | .jp _ | .call _ | .jpV0 _ | .ret => true
  | _ => false

theorem mayWrite_callStack_eq_false {i : Instr} (hi : setsPc i = false) :
    mayWrite i .sp = false ∧ mayWrite i .stack = false := by
  cases i
  case jp | call | jpV0 | ret => cases hi
  all_goals exact ⟨rfl, rfl⟩

/-- Every other instruction goes on at `pc` or skips one instruction, with the call stack as it was. -/
theorem Effect.falls_through {i : Instr} {s t : State} (h : Effect i s t) (hi : setsPc i = false) :
    (t.pc = s.pc ∨ t.pc = s.pc + 2) ∧ t.sp = s.sp ∧ ∀ k : Fin 16, t.stack[k] = s.stack[k] := by
  obtain ⟨hsp, hstack⟩ := mayWrite_callStack_eq_false hi
  refine ⟨?_, h.same hsp, h.same hstack⟩
  by_cases hpc : mayWrite i .pc = false
  · exact .inl (h.same hpc)
  · cases i
    case seByte | sneByte | seReg | sneReg | skp | sknp =>
      obtain ⟨c, rfl⟩ := h
      cases c
      · exact .inl rfl
      · exact .inr rfl
    case jp | call | jpV0 | ret => cases hi
    all_goals exact absurd rfl hpc

theorem toNat_add_two (a : CodeAddr) : (a + 2).toNat = (a.toNat + 2) % 65536 := BitVec.toNat_add a 2

/-- The sum of `JP V0, addr` does not wrap (R178). -/
theorem toNat_jumpTarget (nnn : Addr) (b : Byte) :
    (addrOperand nnn + byteOperand b).toNat = nnn.toNat + b.toNat := by
  have := nnn.isLt
  have := b.isLt
  rw [BitVec.toNat_add, toNat_addrOperand, toNat_byteOperand]
  omega

theorem State.pcBounded_reset : State.reset.PcBounded := by
  unfold State.PcBounded
  decide

theorem State.pcEven_reset : State.reset.PcEven := by
  unfold State.PcEven
  decide

/-! ### The bound of `pc` (R24) -/

/-- From an advanced `pc`, which is at most 4096, an effect leaves `pc` and the return addresses within their bounds. -/
theorem Effect.pcBounded {i : Instr} {s t : State} (h : Effect i s t) (hpc : s.pc.toNat ≤ 4096)
    (hstack : ∀ k : Fin 16, (s.stack[k]).toNat ≤ 4096) : t.PcBounded := by
  cases i
  case jp nnn =>
    cases h
    have := nnn.isLt
    refine ⟨?_, hstack⟩
    rw [State.jump_pc, toNat_addrOperand]
    omega
  case jpV0 nnn =>
    cases h
    have := nnn.isLt
    have := (jumpOffset s nnn).isLt
    refine ⟨?_, hstack⟩
    rw [State.jump_pc, toNat_jumpTarget]
    omega
  case ret =>
    obtain ⟨_, hlt, rfl⟩ := h
    exact ⟨(hstack ⟨_, hlt⟩).trans (by decide), hstack⟩
  case call nnn =>
    obtain ⟨hlt, rfl⟩ := h
    have := nnn.isLt
    refine ⟨?_, fun k => ?_⟩
    · show (addrOperand nnn : CodeAddr).toNat ≤ 0x10FE
      rw [toNat_addrOperand]
      omega
    · show ((s.stack.set s.sp.val s.pc hlt)[k.val]).toNat ≤ 4096
      rw [Vector.getElem_set]
      split
      · exact hpc
      · exact hstack k
  all_goals
    obtain ⟨hnext, -, hkept⟩ := h.falls_through rfl
    refine ⟨?_, fun k => (congrArg _ (hkept k)).trans_le (hstack k)⟩
    rcases hnext with hnext | hnext <;> rw [hnext]
    · omega
    · rw [toNat_add_two]
      omega

/-- Settles O47: a fetch leaves the advanced `pc` at most 4096, and the execute stage keeps the bounds from there. -/
theorem stepKeepsPcBounded : Obligations.StepKeepsPcBounded := by
  intro s t hs h
  rcases step_cases h with ⟨-, rfl⟩ | ⟨-, -, rfl⟩ | ⟨-, hpc, hexec⟩
  · exact hs
  · exact hs
  · obtain ⟨-, hstack⟩ := hs
    have hadv : s.advance.pc.toNat ≤ 4096 := by
      rw [State.advance_pc, toNat_add_two]
      omega
    have hbound : s.advance.PcBounded := ⟨hadv.trans (by decide), hstack⟩
    rcases execDecoded_cases hexec with ⟨k, rfl⟩ | ⟨i, -, heff⟩ | ⟨r, rfl⟩
    · exact hbound
    · exact heff.pcBounded hadv hstack
    · exact hbound

/-! ### The evenness of `pc` (R24, R334) -/

/-- An effect keeps `pc` and the return addresses even when the instruction's own target is even. -/
theorem Effect.pcEven {i : Instr} {s t : State} (h : Effect i s t) (hs : s.PcEven)
    (htarget : EvenTarget s (.supported i)) : t.PcEven := by
  obtain ⟨hpc, hstack⟩ := hs
  cases i
  case jp nnn =>
    cases h
    refine ⟨?_, hstack⟩
    rw [State.jump_pc, toNat_addrOperand]
    exact htarget
  case jpV0 nnn =>
    cases h
    refine ⟨?_, hstack⟩
    rw [State.jump_pc, toNat_jumpTarget]
    exact htarget
  case ret =>
    obtain ⟨hpos, hlt, rfl⟩ := h
    refine ⟨hstack ⟨_, hlt⟩ (Nat.sub_lt hpos Nat.one_pos), fun k hk => hstack k ?_⟩
    exact hk.trans_le (Nat.sub_le _ _)
  case call nnn =>
    obtain ⟨hlt, rfl⟩ := h
    refine ⟨?_, fun k hk => ?_⟩
    · show (addrOperand nnn : CodeAddr).toNat % 2 = 0
      rw [toNat_addrOperand]
      exact htarget
    · show ((s.stack.set s.sp.val s.pc hlt)[k.val]).toNat % 2 = 0
      rw [Vector.getElem_set]
      split
      · exact hpc
      · next hne =>
        have hk : k.val < s.sp.val + 1 := hk
        exact hstack k (by omega)
  all_goals
    obtain ⟨hnext, hsp, hkept⟩ := h.falls_through rfl
    refine ⟨?_, fun k hk => (congrArg (·.toNat % 2) (hkept k)).trans (hstack k (hsp ▸ hk))⟩
    rcases hnext with hnext | hnext <;> rw [hnext]
    · exact hpc
    · rw [toNat_add_two]
      omega

theorem State.pcEven_advance {s : State} (hs : s.PcEven) : s.advance.PcEven := by
  obtain ⟨hpc, hstack⟩ := hs
  refine ⟨?_, hstack⟩
  rw [State.advance_pc, toNat_add_two]
  omega

/-- Settles O48: the advance keeps `pc` even, the software rule reads nothing that the advance changes, and an effect
keeps the invariant. -/
theorem stepKeepsPcEvenUnderTheSoftwareRule : Obligations.StepKeepsPcEvenUnderTheSoftwareRule := by
  intro s t hs htarget h
  rcases step_cases h with ⟨-, rfl⟩ | ⟨-, -, rfl⟩ | ⟨-, -, hexec⟩
  · exact hs
  · exact hs
  · have hadv := State.pcEven_advance hs
    rcases execDecoded_cases hexec with ⟨k, rfl⟩ | ⟨i, hd, heff⟩ | ⟨r, rfl⟩
    · exact hadv
    · rw [hd] at htarget
      exact heff.pcEven hadv htarget
    · exact hadv

/-- Settles O49: reset memory lists nothing, its `pc` is 0x200, and its call stack is zero. -/
theorem resetMeetsTheInvariants : Obligations.ResetMeetsTheInvariants :=
  ⟨Memory.wf_nil, State.pcBounded_reset, State.pcEven_reset, rfl⟩

end Sys2Proof.Machine
end

section
/-!
SUPPORT. What a step does not read (spec/10_state.md R26, R28, R37; spec/45_timer.md R223; spec/48_host_operations.md
R261): the call stack, the timers and the report are read and written by a few instructions each, so every other
meaning commutes with any change of them. Such a change is an overlay; a tick is one.
-/

namespace Sys2Proof.Machine

/-! ### The call stack's instructions (R172, R173) -/

/-- `CALL` on a call stack that is not full pushes the advanced `pc` and jumps. -/
theorem exec_call_of_lt {s : State} {nnn : Addr} (h : s.sp.val < 16) :
    exec (.call nnn) s = .next { s with
      stack := s.stack.set s.sp.val s.pc h, sp := ⟨s.sp.val + 1, Nat.succ_lt_succ h⟩, pc := addrOperand nnn } := by
  simp only [exec, execCall, State.push, dif_pos h]
  rfl

/-- `CALL` on a full call stack raises. -/
theorem exec_call_of_full {s : State} {nnn : Addr} (h : s.sp.val = 16) :
    exec (.call nnn) s = .next (s.raise .stackOverflow) := by
  simp only [exec, execCall, (s.push_eq_none s.pc).2 h]

/-- `RET` on a call stack that is not empty, as a state. -/
theorem exec_ret_eq {s : State} (hpos : 0 < s.sp.val) (h : s.sp.val - 1 < 16) :
    exec .ret s =
      .next { s with sp := ⟨s.sp.val - 1, Nat.lt_succ_of_lt h⟩, pc := s.stack[s.sp.val - 1] } := by
  simp only [exec, execRet, State.pop, dif_neg hpos.ne']
  rfl

/-! ### Overlays -/

/-- A change of the four components that few instructions touch. -/
structure Overlay where
  stack : Vector StackEntry 16 → Vector StackEntry 16
  dt : Byte → Byte
  st : Byte → Byte
  report : List Report → List Report

/-- The state with the overlay's changes made. -/
def Overlay.on (o : Overlay) (s : State) : State :=
  { s with stack := o.stack s.stack, dt := o.dt s.dt, st := o.st s.st, report := o.report s.report }

/-- The overlay leaves alone what the decoded opcode reads or writes of the four components. -/
def Overlay.Spares (o : Overlay) : Decoded → Prop
  | .supported (.call _) | .supported .ret => o.stack = id
  | .supported (.ldVxDt _) | .supported (.ldDtVx _) => o.dt = id
  | .supported (.ldStVx _) => o.st = id
  | .unsupported _ => o.report = id
  | _ => True

section
variable (o : Overlay) (s : State)

/-! ### The operations under an overlay -/

theorem Overlay.skipIf_on (c : Bool) : (o.on s).skipIf c = o.on (s.skipIf c) := by cases c <;> rfl

theorem Overlay.writeResultAndFlag_on (x : Nibble) (r : Byte) (f : Bool) :
    (o.on s).writeResultAndFlag x r f = o.on (s.writeResultAndFlag x r f) := by
  show (if s.cfg.qResultLast then _ else _) = _
  rw [State.writeResultAndFlag, apply_ite o.on]
  rfl

theorem Overlay.bumpIndex_on (x : Nibble) : (o.on s).bumpIndex x = o.on (s.bumpIndex x) := by
  show (if s.cfg.qIndexIncrement then _ else _) = _
  rw [State.bumpIndex, apply_ite o.on]
  rfl

theorem Overlay.loadV_on (k : Nat) (bytes : List Byte) : (o.on s).loadV k bytes = o.on (s.loadV k bytes) := by
  induction bytes generalizing s k with
  | nil => rfl
  | cons b rest ih => exact ih (s.setV (BitVec.ofNat 4 k) b) (k + 1)

variable {o s}

/-- A checked operation whose body commutes with the overlay does so too, when it raises and when it does not. -/
theorem Overlay.checked_on {ok : Bool} {k : ErrorKind} {t : State} {f : State → State}
    (h : checked ok k s (fun s => .next (f s)) = .next t) (hf : f (o.on s) = o.on (f s)) :
    checked ok k (o.on s) (fun s => .next (f s)) = .next (o.on t) := by
  cases ok <;> cases h
  · rfl
  · exact congrArg _ hf

theorem Overlay.push_on (ho : o.stack = id) (a : StackEntry) : (o.on s).push a = (s.push a).map o.on := by
  by_cases hsp : s.sp.val < 16
  · simp only [State.push, Overlay.on, ho, id, dif_pos hsp, Option.map_some]
  · simp [State.push, Overlay.on, hsp]

theorem Overlay.pop_on (ho : o.stack = id) : (o.on s).pop = s.pop.map fun q => (q.1, o.on q.2) := by
  by_cases hsp : s.sp.val = 0
  · simp [State.pop, Overlay.on, hsp]
  · simp only [State.pop, Overlay.on, ho, id, dif_neg hsp, Option.map_some]

theorem step_not_running (hs : s.es ≠ .running) : step s = .next s := by
  cases hes : s.es with
  | running => exact absurd hes hs
  | waitingForKey x => exact step_waiting hes
  | halted r => exact step_halted hes

/-! ### The execute stage and the step under an overlay -/

/-- An instruction whose components the overlay spares commutes with it. -/
theorem Overlay.exec_on {i : Instr} {t : State} (ho : o.Spares (.supported i)) (h : exec i s = .next t) :
    exec i (o.on s) = .next (o.on t) := by
  cases i
  case call nnn =>
    simp only [exec, execCall] at h ⊢
    rw [show (o.on s).push (o.on s).pc = _ from Overlay.push_on ho s.pc]
    cases hpush : s.push s.pc <;> rw [hpush] at h <;> cases h <;> rfl
  case ret =>
    simp only [exec, execRet] at h ⊢
    rw [Overlay.pop_on ho]
    cases hpop : s.pop <;> rw [hpop] at h <;> cases h <;> rfl
  case seByte | sneByte | seReg | sneReg | skp | sknp => cases h; exact congrArg _ (o.skipIf_on s _)
  case addReg | subReg | shr | subnReg | shl => cases h; exact congrArg _ (o.writeResultAndFlag_on s _ _ _)
  case drw =>
    simp only [exec, execDrw] at h ⊢
    exact Overlay.checked_on h rfl
  case ldB =>
    simp only [exec, execLdB] at h ⊢
    exact Overlay.checked_on h rfl
  case storeRegs x =>
    simp only [exec, execStoreRegs] at h ⊢
    exact Overlay.checked_on h (o.bumpIndex_on { s with mem := s.mem.writeBytes (effAddr s) (s.regsUpTo x) } x)
  case loadRegs x =>
    simp only [exec, execLoadRegs] at h ⊢
    refine Overlay.checked_on h ?_
    rw [Overlay.loadV_on, Overlay.bumpIndex_on]
    rfl
  case ldVxDt x =>
    cases h
    show Host.Outcome.next ((o.on s).setV x (o.dt s.dt)) = _
    rw [show o.dt = id from ho]
    rfl
  case ldDtVx x =>
    cases h
    show _ = Host.Outcome.next { o.on s with dt := o.dt (s.getV x) }
    rw [show o.dt = id from ho]
    rfl
  case ldStVx x =>
    cases h
    show _ = Host.Outcome.next { o.on s with st := o.st (s.getV x) }
    rw [show o.st = id from ho]
    rfl
  all_goals cases h; rfl

/-- An execute stage that the overlay spares commutes with it. -/
theorem Overlay.execDecoded_on {d : Decoded} {t : State} (ho : o.Spares d) (h : execDecoded d s = .next t) :
    execDecoded d (o.on s) = .next (o.on t) := by
  cases d with
  | supported i => exact Overlay.exec_on ho h
  | unsupported op =>
    have hreport : o.report = id := ho
    rw [execDecoded, execUnsupported_eq] at h ⊢
    cases h
    show Host.Outcome.next (if s.cfg.strict then _ else _) = _
    rw [apply_ite o.on]
    simp only [Overlay.on, hreport]
    rfl

/-- A step commutes with an overlay that spares what it executes. -/
theorem Overlay.step_on {t : State} (ho : s.es = .running → o.Spares (decode s.fetchWord)) (h : step s = .next t) :
    step (o.on s) = .next (o.on t) := by
  rcases step_cases h with ⟨hs, rfl⟩ | ⟨hs, hpc, rfl⟩ | ⟨hs, hpc, hexec⟩
  · exact step_not_running (s := o.on t) hs
  · exact step_fetchFails (s := o.on s) hs hpc
  · rw [step_running (s := o.on s) hs hpc]
    exact Overlay.execDecoded_on (ho hs) hexec

end

/-- Settles O58: a tick is an overlay of the two timers, which the other instructions do not touch. -/
theorem ticksCommuteWithOtherCycles : Obligations.TicksCommuteWithOtherCycles := by
  intro s t h htimer
  refine Overlay.step_on (o := ⟨id, countDown, countDown, id⟩) (fun hs => ?_) h
  cases hd : decode s.fetchWord with
  | unsupported op => rfl
  | supported i =>
    cases i
    case call | ret => rfl
    case ldVxDt x => exact absurd hd (htimer hs x).1
    case ldDtVx x => exact absurd hd (htimer hs x).2.1
    case ldStVx x => exact absurd hd (htimer hs x).2.2
    all_goals trivial

/-! ### The sound timer and the report (R28, R37) -/

/-- An execute stage in a state with another `ST` and report leaves the same state but for those two. -/
theorem execDecoded_withStReport {d : Decoded} {s t : State} (b : Byte) (r : List Report)
    (h : execDecoded d s = .next t) :
    ∃ b' r', execDecoded d { s with st := b, report := r } = .next { t with st := b', report := r' } := by
  have hother (hd : Overlay.Spares ⟨id, id, fun _ => b, fun _ => r⟩ d) :
      execDecoded d { s with st := b, report := r } = .next { t with st := b, report := r } :=
    Overlay.execDecoded_on hd h
  cases d with
  | unsupported op =>
    rw [execDecoded, execUnsupported_eq] at h ⊢
    cases h
    show ∃ b' r', Host.Outcome.next (if s.cfg.strict then _ else _) = _
    split
    · exact ⟨b, r, rfl⟩
    · exact ⟨b, _, rfl⟩
  | supported i =>
    cases i
    case ldStVx x => cases h; exact ⟨s.getV x, r, rfl⟩
    case call | ret | ldVxDt | ldDtVx => exact ⟨b, r, hother rfl⟩
    all_goals exact ⟨b, r, hother trivial⟩

/-- Settles O52: the fetch reads neither, and the execute stage by `execDecoded_withStReport`. -/
theorem soundTimerAndReportAreNeverRead : Obligations.SoundTimerAndReportAreNeverRead := by
  intro s t b r h
  rcases step_cases h with ⟨hs, rfl⟩ | ⟨hs, hpc, rfl⟩ | ⟨hs, hpc, hexec⟩
  · exact ⟨b, r, step_not_running hs⟩
  · exact ⟨b, r, step_fetchFails hs hpc⟩
  · obtain ⟨b', r', hexec'⟩ := execDecoded_withStReport b r hexec
    exact ⟨b', r', (step_running (s := { s with st := b, report := r }) hs hpc).trans hexec'⟩

/-! ### Stale entries of the call stack (R26) -/

/-- The answer is the state `t`, but for entries of the call stack at and above its `sp`. -/
def AnswersButStale (a : Answer) (t : State) : Prop :=
  ∃ entries : Vector StackEntry 16, a = .next { t with stack := entries } ∧
    ∀ k : Fin 16, k.val < t.sp.val → entries[k] = t.stack[k]

section
variable {s t : State} {entries : Vector StackEntry 16}
  (hentries : ∀ k : Fin 16, k.val < s.sp.val → entries[k] = s.stack[k])
include hentries

/-- `CALL` writes the entry at `sp`, the same in both call stacks. -/
theorem exec_call_withStack {nnn : Addr} (h : exec (.call nnn) s = .next t) :
    AnswersButStale (exec (.call nnn) { s with stack := entries }) t := by
  by_cases hsp : s.sp.val < 16
  · cases (exec_call_of_lt hsp).symm.trans h
    refine ⟨_, exec_call_of_lt (s := { s with stack := entries }) hsp, fun k hk => ?_⟩
    have hk : k.val < s.sp.val + 1 := hk
    show (entries.set s.sp.val s.pc hsp)[k.val] = (s.stack.set s.sp.val s.pc hsp)[k.val]
    rw [Vector.getElem_set, Vector.getElem_set]
    split
    · rfl
    · exact hentries k (by omega)
  · have hfull : s.sp.val = 16 := Nat.le_antisymm s.sp_le (Nat.not_lt.1 hsp)
    cases (exec_call_of_full hfull).symm.trans h
    exact ⟨entries, exec_call_of_full (s := { s with stack := entries }) hfull, hentries⟩

/-- `RET` reads the entry below `sp`, the same in both call stacks. -/
theorem exec_ret_withStack (h : exec .ret s = .next t) : AnswersButStale (exec .ret { s with stack := entries }) t := by
  by_cases hsp : s.sp.val = 0
  · cases (exec_ret_of_zero hsp).symm.trans h
    exact ⟨entries, exec_ret_of_zero (s := { s with stack := entries }) hsp, hentries⟩
  · have hpos := Nat.pos_of_ne_zero hsp
    have hlt : s.sp.val - 1 < 16 := (Nat.sub_lt hpos Nat.one_pos).trans_le s.sp_le
    cases (exec_ret_eq hpos hlt).symm.trans h
    have htop : entries[s.sp.val - 1] = s.stack[s.sp.val - 1] :=
      hentries ⟨s.sp.val - 1, hlt⟩ (Nat.sub_lt hpos Nat.one_pos)
    refine ⟨entries, (exec_ret_eq (s := { s with stack := entries }) hpos hlt).trans ?_, fun k hk =>
      hentries k (hk.trans_le (Nat.sub_le _ _))⟩
    simp only [htop]

/-- An execute stage that spares the call stack leaves it as it is. -/
theorem execDecoded_withStack_of_spares {d : Decoded} (hd : Overlay.Spares ⟨fun _ => entries, id, id, id⟩ d)
    (hsp : t.sp = s.sp) (hkept : ∀ k : Fin 16, t.stack[k] = s.stack[k]) (h : execDecoded d s = .next t) :
    AnswersButStale (execDecoded d { s with stack := entries }) t :=
  ⟨entries, Overlay.execDecoded_on hd h, fun k hk => (hentries k (hsp ▸ hk)).trans (hkept k).symm⟩

/-- An execute stage leaves the same state but for stale entries. -/
theorem execDecoded_withStack {d : Decoded} (h : execDecoded d s = .next t) :
    AnswersButStale (execDecoded d { s with stack := entries }) t := by
  cases d with
  | unsupported op =>
    have ht := h
    rw [execDecoded, execUnsupported_eq] at ht
    split at ht <;> cases ht <;> exact execDecoded_withStack_of_spares hentries rfl rfl (fun _ => rfl) h
  | supported i =>
    have hframe (p : Part) (hw : mayWrite i p = false) : p.Same s t := instructionsWriteOnlyTheirParts i s t p h hw
    cases i
    case call nnn => exact exec_call_withStack hentries h
    case ret => exact exec_ret_withStack hentries h
    case ldVxDt | ldDtVx | ldStVx =>
      exact execDecoded_withStack_of_spares hentries rfl (hframe .sp rfl) (hframe .stack rfl) h
    all_goals exact execDecoded_withStack_of_spares hentries trivial (hframe .sp rfl) (hframe .stack rfl) h

end

/-- Settles O51: the fetch reads no entry, and the execute stage by `execDecoded_withStack`. -/
theorem staleStackEntriesAreUnobservable : Obligations.StaleStackEntriesAreUnobservable := by
  intro s t entries hentries h
  rcases step_cases h with ⟨hs, rfl⟩ | ⟨hs, hpc, rfl⟩ | ⟨hs, hpc, hexec⟩
  · exact ⟨entries, step_not_running hs, hentries⟩
  · exact ⟨entries, step_fetchFails hs hpc, hentries⟩
  · rw [step_running (s := { s with stack := entries }) hs hpc]
    exact execDecoded_withStack (s := s.advance) hentries hexec

end Sys2Proof.Machine
end

section
/-!
SUPPORT. The shifts and the random byte (spec/41_arithmetic_logic.md R149, R151, R152).
-/

namespace Sys2Proof.Machine

theorem toNat_shrOut (a : Byte) : (if shrOut a then 1 else 0) = a.toNat % 2 := by
  by_cases h : shrOut a = true
  · rw [if_pos h, (shrOut_iff a).1 h]
  · have := mt (shrOut_iff a).2 h
    rw [if_neg h]
    omega

theorem toNat_shlOut (a : Byte) : (if shlOut a then 1 else 0) = a.toNat / 128 := by
  have := a.isLt
  by_cases h : shlOut a = true
  · have := (shlOut_iff a).1 h
    rw [if_pos h]
    omega
  · have := mt (shlOut_iff a).2 h
    rw [if_neg h]
    omega

/-- Settles O15: each writes the shifted source and the bit shifted out (`State.resultAndFlag_write`). -/
theorem shiftsMoveOneBitIntoTheFlag : Obligations.ShiftsMoveOneBitIntoTheFlag := by
  rintro x y s src rfl
  refine ⟨⟨decode_encode_supported (.shr x y), _, rfl, ?_⟩, ⟨decode_encode_supported (.shl x y), _, rfl, ?_⟩⟩
  · have hwrite := s.resultAndFlag_write x (shrByte (shiftSource s x y)) (shrOut (shiftSource s x y))
    rwa [toNat_shrByte, toNat_shrOut] at hwrite
  · have hwrite := s.resultAndFlag_write x (shlByte (shiftSource s x y)) (shlOut (shiftSource s x y))
    rwa [toNat_shlByte, toNat_shlOut] at hwrite

/-- Settles O16: the register gets the drawn byte under the mask, and the draw counts one. -/
theorem randomIsAMaskedFreeByte : Obligations.RandomIsAMaskedFreeByte := by
  intro x nn s
  have hget : (s.draw.2.setV x (s.draw.1 &&& nn)).getV x = Config.rnd s.draws &&& nn := State.getV_setV_same _ x _
  refine ⟨decode_encode_supported (.rnd x nn), _, rfl, hget, ?_, ?_, rfl, State.regsSameBut_setV _ x _,
    State.changesOnly_withVDraws ⟨_, _, rfl⟩⟩
  · rw [hget, BitVec.and_assoc, BitVec.and_not_self]
    exact BitVec.and_zero
  · rintro rfl
    rw [hget]
    exact BitVec.and_zero

end Sys2Proof.Machine
end

section
/-!
SUPPORT. Calls and computed jumps (spec/42_branch.md R172, R178, R179): a call and its return, and by induction any
nesting of them.
-/

namespace Sys2Proof.Machine

/-! ### Frames compose -/

theorem Part.Same.trans {p : Part} {s t u : State} (hst : p.Same s t) (htu : p.Same t u) : p.Same s u := by
  cases p with
  | v | stack | mem | keys => exact fun k => (htu k).trans (hst k)
  | disp => exact fun y x => (htu y x).trans (hst y x)
  | i | pc | sp | dt | st | es | cfg | report | draws => exact Eq.trans htu hst

theorem ChangesOnly.trans {ps : List Part} {s t u : State} (hst : ChangesOnly ps s t) (htu : ChangesOnly ps t u) :
    ChangesOnly ps s u :=
  fun p hp => (hst p hp).trans (htu p hp)

theorem ChangesOnly.mono {ps qs : List Part} {s t : State} (h : ChangesOnly ps s t) (hsub : ps ⊆ qs) :
    ChangesOnly qs s t :=
  fun p hp => h p (mt (@hsub p) hp)

/-! ### One call, one return, one computed jump -/

/-- Settles O19: `CALL` below the full depth, and on a full call stack. -/
theorem callPushesTheReturnAddress : Obligations.CallPushesTheReturnAddress := by
  intro nnn s
  refine ⟨decode_encode_supported (.call nnn), fun h => ?_, fun h => ⟨_, exec_call_of_full h, rfl⟩⟩
  refine ⟨_, exec_call_of_lt h, toNat_addrOperand nnn, rfl, fun k => ?_, State.changesOnly_withControl ⟨_, _, _, rfl⟩⟩
  show (s.stack.set s.sp.val s.pc h)[k.val] = _
  rw [Vector.getElem_set]
  simp only [eq_comm (a := s.sp.val)]
  rfl

theorem topNibble_eq {nnn : Addr} {x : Nibble} (h : x.toNat = nnn.toNat / 256) : topNibble nnn = x := by
  have := nnn.isLt
  apply BitVec.eq_of_toNat_eq
  rw [h, topNibble, BitVec.extractLsb'_toNat, Nat.shiftRight_eq_div_pow]
  omega

/-- Settles O23: the sum does not wrap (`toNat_jumpTarget`), and the offset is the register that the quirk selects. -/
theorem jumpWithOffsetAddsTheSelectedRegister : Obligations.JumpWithOffsetAddsTheSelectedRegister := by
  intro nnn x s hx
  have htarget := toNat_jumpTarget nnn (jumpOffset s nnn)
  have hoffset : jumpOffset s nnn = if s.cfg.qJumpVx then s.getV x else s.getV 0 := by rw [jumpOffset, topNibble_eq hx]
  have := nnn.isLt
  have := (jumpOffset s nnn).isLt
  refine ⟨decode_encode_supported (.jpV0 nnn), _, rfl, ?_, ?_, State.changesOnly_withPc ⟨_, rfl⟩⟩
  · rw [State.jump_pc, htarget]
    omega
  · rw [State.jump_pc, htarget, hoffset]

/-! ### Nested calls (R179) -/

/-- Instructions after instructions that complete. -/
theorem cyclesOf_append {is js : List Instr} {s t : State} (h : cyclesOf is s = .next t) :
    cyclesOf (is ++ js) s = cyclesOf js t := by
  induction is generalizing s with
  | nil => cases h; rfl
  | cons i rest ih =>
    rw [cyclesOf] at h
    rw [List.cons_append, cyclesOf]
    split at h
    · exact ih h
    · cases h
    · cases h

/-- The cycle of a `CALL`: the return address is the address after it. -/
theorem cycleOf_call {s : State} (nnn : Addr) (h : s.sp.val < 16) :
    ∃ t, cycleOf (.call nnn) s = .next t ∧ t.sp.val = s.sp.val + 1 ∧
      (∀ k : Fin 16, k.val < s.sp.val → t.stack[k] = s.stack[k]) ∧
      (∀ k : Fin 16, k.val = s.sp.val → t.stack[k] = s.pc + 2) ∧ ChangesOnly [.pc, .stack, .sp] s t := by
  obtain ⟨-, hcall, -⟩ := callPushesTheReturnAddress nnn s.advance
  obtain ⟨t, ht, -, hsp, hstack, hframe⟩ := hcall h
  have hadv : ChangesOnly [.pc, .stack, .sp] s s.advance := (State.changesOnly_withPc ⟨_, rfl⟩).mono (by simp)
  exact ⟨t, ht, hsp, fun k hk => (hstack k).trans (if_neg hk.ne), fun k hk => (hstack k).trans (if_pos hk),
    hadv.trans (hframe.mono (by simp))⟩

/-- The cycle of a `RET`: control goes on at the entry below `sp`. -/
theorem cycleOf_ret {s : State} {k : Fin 16} (h : s.sp.val = k.val + 1) :
    ∃ t, cycleOf .ret s = .next t ∧ t.sp.val = k.val ∧ t.pc = s.stack[k] ∧ ChangesOnly [.pc, .sp] s t := by
  obtain ⟨t, ht, hsp, hpc, hframe⟩ := exec_ret_of_pos (s := s.advance) (h.trans_gt k.val.succ_pos)
  have hadv : ChangesOnly [.pc, .sp] s s.advance := (State.changesOnly_withPc ⟨_, rfl⟩).mono (by simp)
  have hsp : t.sp.val = k.val := by
    rw [hsp, State.advance_sp, h]
    rfl
  exact ⟨t, ht, hsp, hpc k hsp.symm, hadv.trans (hframe.mono (by simp))⟩

/-- Settles O24, by induction on the targets: the first call, the rest and their returns, then the return of the
first. -/
theorem callReturnSymmetry : Obligations.CallReturnSymmetry := by
  intro targets
  induction targets with
  | nil =>
    intro s _
    exact ⟨s, rfl, fun h => absurd rfl h, fun _ _ => rfl, (State.changesOnly_withPc ⟨s.pc, rfl⟩).mono (by simp)⟩
  | cons nnn rest ih =>
    intro s hfits
    rw [List.length_cons] at hfits
    obtain ⟨t, ht, htsp, htbelow, httop, htframe⟩ := cycleOf_call nnn (s := s) (by omega)
    obtain ⟨u, hu, -, hubelow, huframe⟩ := ih t (by omega)
    have husp : u.sp.val = s.sp.val + 1 := by rw [huframe .sp (by decide), htsp]
    obtain ⟨w, hw, hwsp, hwpc, hwframe⟩ := cycleOf_ret (s := u) (k := ⟨s.sp.val, by omega⟩) husp
    refine ⟨w, ?_, fun _ => ?_, fun k hk => ?_, ?_⟩
    · rw [List.map_cons, List.length_cons, List.replicate_succ', List.cons_append, cyclesOf, ht, ← List.append_assoc]
      show cyclesOf (_ ++ [.ret]) t = _
      rw [cyclesOf_append hu, cyclesOf, hw]
      rfl
    · have htop : s.sp.val < t.sp.val := by omega
      rw [hwpc, hubelow _ htop, httop _ rfl]
    · rw [hwframe .stack (by decide) k, hubelow k (by omega), htbelow k hk]
    · have hframe : ChangesOnly [.pc, .stack, .sp] s w :=
        (htframe.trans (huframe.mono (by simp))).trans (hwframe.mono (by simp))
      exact hframe.erase (p := .sp) (Fin.ext hwsp)

end Sys2Proof.Machine
end

section
/-!
SUPPORT. Memory and the index register (spec/20_memory.md R67, R74; spec/43_memory_index.md R191, R192, R194, R195):
what is stored is what is read, loaded and fetched.
-/

namespace Sys2Proof.Machine

/-- Settles O31: `Memory.read_write`, at the written address and at another. -/
theorem readAfterWrite : Obligations.ReadAfterWrite := by
  intro m a b v ha
  have hread := fun c => Memory.read_write m a c v (Nat.lt_succ_of_le ha)
  exact ⟨(hread a).trans (if_pos rfl), fun hb => (hread b).trans (if_neg hb)⟩

/-- Settles O26: the values of `I` as numbers; a glyph lies below the program (`fontBase_le`). -/
theorem addIndexAndGlyphAddress : Obligations.AddIndexAndGlyphAddress := by
  refine ⟨fun x s => ⟨decode_encode_supported (.addI x), _, rfl, ?_, State.changesOnly_withI ⟨_, rfl⟩⟩,
    fun x s => ⟨decode_encode_supported (.ldF x), _, rfl, toNat_glyphAddr (s.getV x), ?_,
      State.changesOnly_withI ⟨_, rfl⟩⟩⟩
  · rw [State.addToI_i, BitVec.toNat_ofNat]
  · have := fontBase_le
    show (glyphAddr (s.getV x)).toNat < 0x200
    rw [toNat_glyphAddr]
    omega

/-- Settles O30: the store leaves `V[k]` at the address that the load reads for `V[k]` (`blockStoreWritesAscending`,
`blockLoadReadsAscending`). -/
theorem blockLoadUndoesBlockStore : Obligations.BlockLoadUndoesBlockStore := by
  intro x s t regs hfits hstore
  obtain ⟨-, hfitsStore, -⟩ := blockStoreWritesAscending x s
  obtain ⟨t', ht', hbytes, -⟩ := hfitsStore hfits
  cases ht'.symm.trans hstore
  obtain ⟨-, hfitsLoad, -⟩ := blockLoadReadsAscending x { t with v := regs, i := s.i }
  obtain ⟨u, hu, hregs, -⟩ := hfitsLoad hfits
  refine ⟨u, hu, fun k => (hregs k).trans ?_⟩
  split
  · next hk => exact hbytes k hk
  · rfl

/-- The word of the opcode table's numbering is the instruction's one word. -/
theorem State.withFetchWord_toNat (s : State) (op : Opcode) : s.withFetchWord 16 op.toNat = s.placeWord op := by
  have := op.isLt
  have hword : tableWord 16 op.toNat = some op := by
    rw [tableWord, Nat.mod_eq_of_lt this, if_pos this, BitVec.ofNat_toNat, BitVec.setWidth_eq]
  rw [State.withFetchWord, hword]

/-- Another memory and engine state in an otherwise equal state change no other component. -/
theorem State.changesOnly_withMemEs {s t : State} (h : ∃ m e, t = { s with mem := m, es := e }) :
    ChangesOnly [.mem, .es] s t := by
  obtain ⟨m, e, rfl⟩ := h
  have hframe := State.changesOnly_withMemEsCfgDraws (s := s) ⟨m, e, s.cfg, s.draws, rfl⟩
  exact (hframe.erase (p := .cfg) rfl).erase (p := .draws) rfl

/-- Settles O32: the word placed at `pc` is the one fetched (`State.fetchWord_placeWord`), and it decodes to its
instruction. -/
theorem storedInstructionIsFetchedNext : Obligations.StoredInstructionIsFetchedNext := by
  intro i s hpc
  rw [State.withFetchWord_toNat]
  refine ⟨?_, State.changesOnly_withMemEs ⟨_, _, rfl⟩, memSameBut_of_writeBytes rfl (Nat.add_le_add_right hpc 2) rfl⟩
  rw [step_running (s := s.placeWord (encode i)) rfl hpc, State.fetchWord_placeWord s _ hpc, decode_encode_supported]
  rfl

end Sys2Proof.Machine
end

section
/-!
SUPPORT. A sprite drawn twice (spec/44_draw.md R210): the second draw covers the pixels of the first, and toggles them
back.
-/

namespace Sys2Proof.Machine

/-- The pixels of a sprite depend on the coordinate registers, `I`, memory and the configuration. -/
theorem spriteCovers_congr {s t : State} {x y n : Nibble} (hx : t.getV x = s.getV x) (hy : t.getV y = s.getV y)
    (hi : t.i = s.i) (hmem : t.mem = s.mem) (hcfg : t.cfg = s.cfg) (py : Fin 32) (px : Fin 64) :
    SpriteCovers t x y n py px ↔ SpriteCovers s x y n py px := by
  unfold SpriteCovers
  rw [hx, hy, hi, hmem, hcfg]

theorem Display.eq_blank_iff (d : Display) : d = Display.blank ↔ ¬ ∃ py px, d.pixel py px = true := by
  constructor
  · rintro rfl ⟨py, px, h⟩
    exact Bool.false_ne_true ((Display.pixel_blank py px).symm.trans h)
  · intro h
    refine Display.ext_pixel fun py px => ?_
    rw [Display.pixel_blank]
    exact Bool.eq_false_iff.2 fun hset => h ⟨py, px, hset⟩

/-- The state that `DRW` leaves when the sprite's bytes exist. -/
def State.drawn (s : State) (x y n : Nibble) : State :=
  State.setVf { s with disp := (s.drawSprite x y n).disp } (flagByte (s.drawSprite x y n).collided)

theorem State.vf_drawn (s : State) (x y n : Nibble) :
    (s.drawn x y n).getV 15 = flagByte (s.drawSprite x y n).collided := State.getV_setV_same _ _ _

/-- The second draw toggles back what the first toggled. -/
theorem State.disp_drawSprite_drawn {s : State} {x y : Nibble} (n : Nibble) (hx : x ≠ 15) (hy : y ≠ 15) :
    ((s.drawn x y n).drawSprite x y n).disp = s.disp := by
  refine Display.ext_pixel fun py px => ?_
  have hcovers : SpriteCovers (s.drawn x y n) x y n py px ↔ SpriteCovers s x y n py px :=
    spriteCovers_congr (State.getV_setV_ne _ _ hx) (State.getV_setV_ne _ _ hy) rfl rfl rfl py px
  by_cases h : SpriteCovers s x y n py px
  · rw [State.pixel_drawSprite_of_covers (hcovers.2 h)]
    show (!(s.drawSprite x y n).disp.pixel py px) = _
    rw [State.pixel_drawSprite_of_covers h, Bool.not_not]
  · rw [State.pixel_drawSprite_of_not_covers (mt hcovers.1 h)]
    exact State.pixel_drawSprite_of_not_covers h

/-- Settles O34: the second draw restores the display (`State.disp_drawSprite_drawn`), so that on an empty one its
collisions are the pixels the first draw set. -/
theorem drawingTwiceErases : Obligations.DrawingTwiceErases := by
  intro x y n s hx hy hfits
  refine ⟨s.drawn x y n, (s.drawn x y n).drawn x y n, exec_drw_of_fits hfits, exec_drw_of_fits hfits,
    State.disp_drawSprite_drawn n hx hy, fun hblank => ⟨?_, ?_⟩⟩
  · have hnone : (s.drawSprite x y n).collided = false := by
      rw [← Bool.not_eq_true, State.drawSprite_collided_iff, hblank]
      simp
    rw [State.vf_drawn, hnone]
    rfl
  · have hcollided : ((s.drawn x y n).drawSprite x y n).collided = true ↔ (s.drawn x y n).disp ≠ Display.blank := by
      rw [State.drawSprite_collided_iff, State.disp_drawSprite_drawn n hx hy, hblank, Ne, Display.eq_blank_iff, not_not]
      simp
    rw [State.vf_drawn, flagByte]
    simp only [hcollided, ne_eq, ite_not]

end Sys2Proof.Machine
end

section
/-!
SUPPORT. The keypad and the wait for a key (spec/46_input.md R230 to R233; spec/48_host_operations.md R254, R255, R259).
-/

namespace Sys2Proof.Machine

/-! ### The latch -/

/-- New registers, keys and engine state in an otherwise equal state change no other component. -/
theorem State.changesOnly_withVKeysEs {s t : State} (h : ∃ vs ks e, t = { s with v := vs, keys := ks, es := e }) :
    ChangesOnly [.v, .keys, .es] s t := by
  obtain ⟨vs, ks, e, rfl⟩ := h
  intro p hp
  cases p with
  | v | keys | es => simp at hp
  | stack | mem => exact fun _ => rfl
  | disp => exact fun _ _ => rfl
  | i | pc | sp | dt | st | cfg | report | draws => rfl

theorem State.changesOnly_setKey (s : State) (k : Nibble) (p : Bool) : ChangesOnly [.keys] s (s.setKey k p) := by
  have hframe : ChangesOnly [.v, .keys, .es] s (s.setKey k p) := State.changesOnly_withVKeysEs ⟨_, _, _, rfl⟩
  exact (hframe.of_cons fun _ => rfl).erase (p := .es) rfl

/-- A press that meets a waiting engine ends the wait (R255). -/
theorem State.deliverKeyEvent_release {s : State} {x : Nibble} (k : Nibble) (hs : s.es = .waitingForKey x) :
    s.deliverKeyEvent k true = (s.setKey k true).releaseWait x k := by
  simp only [State.deliverKeyEvent, hs]

/-- Every other key event sets the latch alone (R254). -/
theorem State.deliverKeyEvent_eq_setKey {s : State} {p : Bool} (k : Nibble)
    (h : p = false ∨ ∀ x, s.es ≠ .waitingForKey x) : s.deliverKeyEvent k p = s.setKey k p := by
  unfold State.deliverKeyEvent
  split
  · next x hs => exact absurd hs (h.resolve_left (by decide) x)
  · rfl

theorem State.isPressed_deliverKeyEvent (s : State) (k j : Nibble) (p : Bool) :
    (s.deliverKeyEvent k p).isPressed j = if j = k then p else s.isPressed j := by
  rw [← State.isPressed_setKey]
  unfold State.deliverKeyEvent
  split <;> rfl

/-- Settles O54: the latch by `State.isPressed_deliverKeyEvent`, the frame by `State.changesOnly_setKey`. -/
theorem keyEventsUpdateTheLatch : Obligations.KeyEventsUpdateTheLatch := fun s k j p =>
  ⟨s.isPressed_deliverKeyEvent k j p, fun h => State.deliverKeyEvent_eq_setKey k h ▸ s.changesOnly_setKey k p⟩

/-! ### The instructions -/

/-- Settles O36: both skip on the latch of the selected key. -/
theorem keySkipsTestTheSelectedKey : Obligations.KeySkipsTestTheSelectedKey := by
  intro x key s hkey
  obtain rfl : keyOperand s x = key := BitVec.eq_of_toNat_eq ((toNat_keyOperand s x).trans hkey.symm)
  refine ⟨⟨decode_encode_supported (.skp x), exec_skipIf rfl Iff.rfl⟩, ⟨decode_encode_supported (.sknp x), ?_⟩⟩
  have hup : (!s.isPressed (keyOperand s x)) = true ↔ ¬ s.isPressed (keyOperand s x) = true := by simp
  simpa only [ite_not] using exec_skipIf (i := .sknp x) rfl hup

/-- Settles O37: the wait is entered through `es` alone, and a press leaves it by `State.deliverKeyEvent_release`. -/
theorem keyWaitRunsToItsRelease : Obligations.KeyWaitRunsToItsRelease := by
  refine ⟨fun x s => ⟨decode_encode_supported (.ldVxK x), _, rfl, rfl, State.changesOnly_withEs ⟨_, rfl⟩⟩, ?_⟩
  intro x k s hs
  have hrelease := State.deliverKeyEvent_release k hs
  have hup : s.deliverKeyEvent k false = s.setKey k false := State.deliverKeyEvent_eq_setKey k (.inl rfl)
  refine ⟨step_waiting hs, hs, hup ▸ hs, hrelease ▸ rfl, getV_deliverKeyEvent_release k hs, ?_,
    fun j => s.isPressed_deliverKeyEvent k j true, ?_, fun j => s.isPressed_deliverKeyEvent k j false,
    hup ▸ s.changesOnly_setKey k false, State.changesOnly_withTimers ⟨_, _, rfl⟩⟩
  · rw [hrelease]
    exact State.regsSameBut_setV (s.setKey k true) x _
  · exact hrelease ▸ State.changesOnly_withVKeysEs ⟨_, _, _, rfl⟩

/-! ### The queries (R256, R257, R259) -/

theorem State.anyPressed_eq_none_iff (s : State) : s.anyPressed = none ↔ ∀ k, s.isPressed k = false := by
  unfold State.anyPressed
  rw [List.find?_eq_none]
  constructor
  · intro h k
    have hk : k ∈ (List.range 16).map (BitVec.ofNat 4) :=
      List.mem_map.2 ⟨k.toNat, List.mem_range.2 k.isLt, by rw [BitVec.ofNat_toNat, BitVec.setWidth_eq]⟩
    exact Bool.eq_false_iff.2 (h k hk)
  · exact fun h k _ => Bool.eq_false_iff.1 (h k)

/-- The keys are searched in the order of their numbers. -/
theorem State.anyPressed_eq_some_iff (s : State) (k : Nibble) :
    s.anyPressed = some k ↔ s.isPressed k = true ∧ ∀ j : Nibble, j.toNat < k.toNat → s.isPressed j = false := by
  have hval (j : Nibble) : BitVec.ofNat 4 j.toNat = j := by rw [BitVec.ofNat_toNat, BitVec.setWidth_eq]
  unfold State.anyPressed
  rw [List.find?_map, Option.map_eq_some_iff]
  constructor
  · rintro ⟨i, hi, rfl⟩
    rw [List.find?_range_eq_some] at hi
    obtain ⟨hpressed, hmem, hbelow⟩ := hi
    have hi : (BitVec.ofNat 4 i).toNat = i := Nat.mod_eq_of_lt (List.mem_range.1 hmem)
    refine ⟨hpressed, fun j hj => ?_⟩
    have hup := hbelow j.toNat (hi ▸ hj)
    simpa only [Function.comp_apply, hval, Bool.not_eq_true'] using hup
  · rintro ⟨hpressed, hbelow⟩
    refine ⟨k.toNat, ?_, hval k⟩
    rw [List.find?_range_eq_some]
    refine ⟨?_, List.mem_range.2 k.isLt, fun i hi => ?_⟩
    · rwa [Function.comp_apply, hval]
    · have hi' : (BitVec.ofNat 4 i).toNat = i := Nat.mod_eq_of_lt (hi.trans k.isLt)
      have hup := hbelow (BitVec.ofNat 4 i) (hi'.trans_lt hi)
      rw [Function.comp_apply, hup]
      rfl

/-- Settles O57: each query answers from the state and leaves it. -/
theorem queriesReadWithoutChanging : Obligations.QueriesReadWithoutChanging := by
  intro s
  have hsound : s.soundTimerActive = decide (s.st ≠ 0) := by
    rw [← Bool.coe_iff_coe, State.soundTimerActive_iff, decide_eq_true_iff]
  exact ⟨rfl, hsound ▸ rfl, fun _ => rfl, _, rfl, s.anyPressed_eq_none_iff, s.anyPressed_eq_some_iff⟩

end Sys2Proof.Machine
end

section
/-!
SUPPORT. `STOP` (spec/47_system.md R241), the countdown of the timers and the loading of an image
(spec/48_host_operations.md R251, R253, R298).
-/

namespace Sys2Proof.Machine

/-- Settles O39: `STOP` writes `es` alone, and a halted engine idles. -/
theorem stopHaltsCleanly : Obligations.StopHaltsCleanly := fun _ =>
  ⟨decode_encode_supported .stop, _, rfl, rfl, step_halted rfl, State.changesOnly_withEs ⟨_, rfl⟩⟩

theorem toNat_countDown (d : Byte) : (countDown d).toNat = d.toNat - 1 := by
  unfold countDown
  split
  · next h => rw [h]; rfl
  · next h => bv_omega

/-- Settles O53, by induction on the number of ticks. -/
theorem ticksCountDownToZero : Obligations.TicksCountDownToZero := by
  intro s n
  induction n with
  | zero => exact ⟨rfl, rfl, State.changesOnly_withTimers ⟨_, _, rfl⟩⟩
  | succ n ih =>
    obtain ⟨hdt, hst, hframe⟩ := ih
    rw [Function.iterate_succ_apply']
    refine ⟨?_, ?_, hframe.trans (State.changesOnly_withTimers ⟨_, _, rfl⟩)⟩
    · rw [State.tickTimers_dt, toNat_countDown, hdt, Nat.sub_sub]
    · rw [State.tickTimers_st, toNat_countDown, hst, Nat.sub_sub]

/-- Settles O55: the two outcomes of `loadImage`; an image that fits is written over the reset memory. -/
theorem loadResetsAndCopiesTheImage : Obligations.LoadResetsAndCopiesTheImage := by
  intro s image
  have hresult := loadResult_loadImage s.cfg s.draws image
  have hes := loadImage_es s.cfg s.draws image
  refine ⟨changesOnly_loadImage s.cfg s.draws image, loadImage_cfg s.cfg s.draws image, fun hfits => ?_,
    fun hlong => ?_⟩
  · have hmem := loadImage_mem_of_fits s.cfg s.draws hfits
    have hbound : 0x200 + image.length ≤ 4096 := by omega
    rw [if_neg (Nat.not_lt.2 hfits)] at hresult hes
    refine ⟨congrArg (fun r => some (s.load image, r)) hresult, hes, fun k hk => ?_,
      memSameBut_of_writeBytes rfl hbound hmem⟩
    exact (congrArg (·.read (0x200 + k)) hmem).trans (Memory.read_writeBytes_add _ rfl hbound hk)
  · rw [if_pos hlong] at hresult hes
    exact ⟨congrArg (fun r => some (s.load image, r)) hresult, hes,
      fun a => congrArg (·.read a) (loadImage_mem_of_tooLong s.cfg s.draws hlong)⟩

end Sys2Proof.Machine
end
